-- ==== Sys2Proof/Word.lean ====
section
/-! DEFINITION. The word type of the hardware (rules R6, R9, R51 of spec/): every symbol, stream element,
length byte and count byte is one 8-bit value, and nothing is wider. -/

namespace Sys2Proof

/-- A symbol or stream element: 8 bits (`SYM_W`, rule R6), unsigned 0..255 (rule R9), bit 7 the most significant. -/
abbrev Byte := BitVec 8

/-- The 3-bit phase codes of the table under rule R33, as `DEC.fphase` holds them (rule R36). -/
abbrev PhaseCode := BitVec 3

end Sys2Proof
end

