-- ==== Sys2Proof/Config.lean ====
section
/-! DEFINITION. The hardwired constants of rule R6 (none is writable at run time) and the free values: opaque
constants for the registers the spec calls unspecified after an event (log entries 4 and 5). -/

namespace Sys2Proof.Config

/-- `MARKER` of rule R6: the first byte of a LITERAL token; never a run length. -/
def marker : Byte := 0xFF

/-- `MAX_RUN` of rule R6: the largest run length one RUN token carries. -/
def maxRun : Byte := 254

/-- `LIT_MAX` of rule R6 (the spec's decision D7): capacity of the literal queue and largest count ENC emits. -/
def litMax : Byte := 255

/-- `EMIT_ZERO_RUN` of rule R6 (the spec's decision D5): true for this hardware (log entry 10). -/
def emitZeroRun : Bool := true

/-- Free value: what `ENC.pat` holds after the `k`-th re-initialisation of ENC (rules R22, R40, R95). -/
opaque freePat : Nat → Byte

/-- Free value: what `ENC.q_mem[i]` holds after the `k`-th re-initialisation of ENC (rules R24, R40, R95). -/
opaque freeQMem : Nat → Nat → Byte

/-- Free value: what `DEC.fphase` reads after the `k`-th re-initialisation of DEC (rules R36, R40, R122). -/
opaque freeFphase : Nat → PhaseCode

end Sys2Proof.Config
end

