-- ==== Sys2Proof/Syntax.lean ====
section
/-! DEFINITION. The operation set: the two tokens DEC executes and the six input events (rules R17, R70, R83),
one constructor per row of spec/opcode_table.json. -/

namespace Sys2Proof

/-- The eight rows of spec/opcode_table.json. The tokens carry the bytes of their format; the events carry
their operand, if any (they have no bit pattern, rule R83). -/
inductive Instr where
  /-- `LIT c, s1 ... sc` (rules R73, R84): count byte and symbols. -/
  | lit (c : Byte) (syms : List Byte)
  /-- `RUN n, s` (rules R72, R84): run length byte and symbol. -/
  | run (n : Byte) (sym : Byte)
  /-- `ENC.RESET` (rule R95). -/
  | encReset
  /-- `ENC.SYM(b)` (rule R96). -/
  | encSym (b : Byte)
  /-- `ENC.END` (rule R110). -/
  | encEnd
  /-- `DEC.RESET` (rule R122). -/
  | decReset
  /-- `DEC.ELEM(v)` (rule R123). -/
  | decElem (v : Byte)
  /-- `DEC.END` (rule R130). -/
  | decEnd
deriving DecidableEq, Repr

/-- Tokens have an encoding in the wire format; events have none (rules R17, R83). -/
def Instr.isToken : Instr → Bool
  | .lit _ _ => true
  | .run _ _ => true
  | .encReset => false
  | .encSym _ => false
  | .encEnd => false
  | .decReset => false
  | .decElem _ => false
  | .decEnd => false

/-- The unit that takes the event or executes the token: true for ENC, false for DEC (rules R16, R83). -/
def Instr.isEnc : Instr → Bool
  | .lit _ _ => false
  | .run _ _ => false
  | .encReset => true
  | .encSym _ => true
  | .encEnd => true
  | .decReset => false
  | .decElem _ => false
  | .decEnd => false

end Sys2Proof
end

