-- ==== Sys2Proof/Machine/State.lean ====
section
/-! DEFINITION. The machine's state as plain data: the registers of ENC and DEC (10_state.md), the four byte streams
(rule R50), and the model's own fields: the caller's turns, how far the connection of the units has carried (rule R54), and
the two counters of free values. -/

namespace Sys2Proof.Machine

/-- `DEC.phase`: five constructors and no others (rule R33). -/
inductive Phase where
  /-- Between tokens (code 0). -/
  | head
  /-- A run length has been read; its symbol is next (code 1). -/
  | sym
  /-- The marker has been read; the literal count is next (code 2). -/
  | count
  /-- Inside a literal block (code 3). -/
  | body
  /-- `MalformedStream` has been raised (code 4). -/
  | fault
deriving DecidableEq, Repr

/-- The number of entries of `ENC.q_mem` (rules R24, R40): `LIT_MAX`. -/
abbrev queueCapacity : Nat := 255

/-- The registers of ENC, exactly `pv`, `pat`, `rl` and `q` (rule R20), `q` held as buffer and fill count (rule R24). -/
structure EncState where
  /-- `ENC.pv`, 1 bit: the pattern is valid (rule R21). -/
  pv : Bool
  /-- `ENC.pat`, 8 bits: the last symbol that failed to match (rule R22). -/
  pat : Byte
  /-- `ENC.rl`, 8 bits: the run length (rule R23). -/
  rl : Byte
  /-- `ENC.q_mem[0..254]`, 8 bits each: the literal queue's buffer (rule R24). -/
  qMem : Vector Byte queueCapacity
  /-- `ENC.q_len`, 8 bits: the queue's fill count (rule R24). -/
  qLen : Byte
deriving DecidableEq, Repr

/-- The registers of DEC (rules R33, R34, R36, R37). `DEC.err` is no storage of its own (rule R35): see Flags.lean. -/
structure DecState where
  /-- `DEC.phase` (rule R33). -/
  phase : Phase
  /-- `DEC.cnt`, 8 bits: run length in `SYM`, literal symbols still to come in `BODY` (rule R34). -/
  cnt : Byte
  /-- `DEC.fphase`, 3 bits: the code of the phase at the fault (rule R36). -/
  fphase : PhaseCode
deriving DecidableEq, Repr

/-- An item of a stream: one 8-bit element or the end mark (rules R51, R54). -/
inductive Item where
  /-- An element. -/
  | elem (v : Byte)
  /-- The end mark; not a byte of the wire format (rule R54). -/
  | eos
deriving DecidableEq, Repr

/-- Whose turn it is (log entry 6): the caller's moves of rule R192, in the order the caller makes them. -/
inductive Turn where
  /-- The `RESET` event of ENC; if `drops`, it coincides with the delivery of the next item of `ENC.in`, which is
  then dropped (rule R167). -/
  | encReset (drops : Bool)
  /-- The next item of `ENC.in` is delivered: `ENC.SYM` or `ENC.END` (rule R52). -/
  | encItem
  /-- The `RESET` event of DEC, with `drops` as for ENC. -/
  | decReset (drops : Bool)
  /-- The next item of `DEC.in` is delivered: `DEC.ELEM` or `DEC.END` (rule R52). -/
  | decItem
  /-- DEC executes the whole token at the front of `DEC.in`, the big step of rule R134 (log entry 7). -/
  | decToken
  /-- The connection of `ENC.out` to `DEC.in` carries one item (rules R54, R153; log entry 17). -/
  | passItem
deriving DecidableEq, Repr

/-- The two units, the four streams, and the model's own fields (`turns`, `passed`, `encDraws`, `decDraws`). -/
structure State where
  /-- The encoder's registers. -/
  enc : EncState
  /-- The decoder's registers. -/
  dec : DecState
  /-- `ENC.in`: symbols and end marks still to be delivered, next one first (rules R50, R52). -/
  encIn : List Item
  /-- `ENC.out`: all that ENC has appended, oldest first (rules R25, R53). -/
  encOut : List Item
  /-- `DEC.in`: token bytes and end marks still to be delivered, next one first (rules R50, R52). -/
  decIn : List Item
  /-- `DEC.out`: all that DEC has appended, oldest first (rules R25, R53). -/
  decOut : List Item
  /-- The caller's turns still to come, next one first (log entry 6). -/
  turns : List Turn
  /-- How many items of `ENC.out`, from its first on, the connection has carried to `DEC.in` (rule R54; log entry 17). -/
  passed : Nat
  /-- How often ENC's free values have been drawn (log entry 4). -/
  encDraws : Nat
  /-- How often DEC's free value has been drawn (log entry 5). -/
  decDraws : Nat
deriving DecidableEq, Repr

/-- Why the machine stops. `MalformedStream` is not here: DEC takes it and goes on in phase `FAULT` (rule R161). -/
inductive Fault where
  /-- `ENC.pat` was read while `pv = 0`. Raised by `ENC.SYM` through the run flush, and only in states with `pv = 0`
  and `rl > 0`, which no run from reset reaches (rule R29). Rule R22: "a model must not read it (treat a read as a
  fault of the model)". Safe: log entry 8. -/
  | patternReadWhileNone
deriving DecidableEq, Repr

/-- Why an instruction has no meaning. -/
inductive Refusal where
  /-- Raised by an arm of `exec` whose instruction has no meaning yet; none has this now. Safe. -/
  | notModelled (mnemonic : String)
deriving DecidableEq, Repr

/-- What one step or one instruction answers. -/
abbrev Result := Host.Outcome State Fault Refusal

/-- ENC right after reset: `pv`, `rl`, `q_len` as rule R40 says; `pat` and `q_mem`, which rule R40 leaves unspecified,
at 0 (log entries 1 and 2). -/
def EncState.reset : EncState :=
  { pv := false, pat := 0, rl := 0, qMem := Vector.replicate queueCapacity 0, qLen := 0 }

/-- DEC right after reset: `phase` and `cnt` as rule R40 says; `fphase`, which rule R40 leaves unspecified, at the code of
`HEAD` (rule R36 offers it; log entry 3). -/
def DecState.reset : DecState := { phase := .head, cnt := 0, fphase := 0 }

/-- The machine right after reset of both units: nothing delivered, nothing emitted, no turn pending (log entry 6). -/
def State.reset : State :=
  { enc := .reset, dec := .reset, encIn := [], encOut := [], decIn := [], decOut := [], turns := [],
    passed := 0, encDraws := 0, decDraws := 0 }

end Sys2Proof.Machine
end

