-- ==== Sys2Proof/Machine/Flags.lean ====
section
/-! DEFINITION. The two flags of rule R17, `ENC.pv` (through the match predicate) and `DEC.err`, and the numeric codes
the status register `DEC.fphase` uses. -/

namespace Sys2Proof.Machine

/-- The match predicate of rule R92: `pv = 1` and `b = pat`; `pv` is looked at first, so `pat` is not read while
`pv = 0`. -/
def EncState.matchesPat (e : EncState) (b : Byte) : Bool := e.pv && b == e.pat

/-- `DEC.err`, defined as `phase == FAULT` (rule R35). -/
def DecState.err (d : DecState) : Bool := d.phase == .fault

/-- The numeric codes of the table under rule R33. -/
def Phase.code : Phase → PhaseCode
  | .head => 0
  | .sym => 1
  | .count => 2
  | .body => 3
  | .fault => 4

end Sys2Proof.Machine
end

