-- ==== Sys2Proof/WellFormed.lean ====
section
/-! DEFINITION. Which terms of `Instr` are instructions of the hardware: a RUN's length byte is not the marker
(rules R72, R78) and a LIT has exactly as many symbols as its count byte says (rule R73). -/

namespace Sys2Proof

/-- Why a term is no instruction of the hardware. -/
inductive IllFormed where
  /-- A RUN whose length byte is 0xFF: "The run length 255 does not exist" (rule R78). -/
  | runLengthIsMarker
  /-- A LIT whose count byte differs from the number of its symbols (rule R73). -/
  | litCountMismatch
deriving DecidableEq, Repr

/-- The first check a term fails, if any. -/
def Instr.illFormed : Instr → Option IllFormed
  | .lit c syms => if syms.length = c.toNat then none else some .litCountMismatch
  | .run n _ => if n = Config.marker then some .runLengthIsMarker else none
  | .encReset => none
  | .encSym _ => none
  | .encEnd => none
  | .decReset => none
  | .decElem _ => none
  | .decEnd => none

/-- A term that passes every check. -/
def Instr.wf (i : Instr) : Bool := i.illFormed.isNone

end Sys2Proof
end

