-- ==== Sys2Proof/Decode.lean ====
section
/-! DEFINITION. The wire format (30_encoding.md): reading one token from bytes, total and rejecting by name; the
encoder written from the same formats; splitting a stream into its tokens (rule R80) and what the tokens decode to
(rule R135). The six events have no bit pattern (rule R83), so no bytes decode to them. -/

namespace Sys2Proof

/-- Why bytes do not begin with a complete token. Truncation is the only malformation (rule R81). -/
inductive DecodeError where
  /-- There is no element at all. -/
  | noElement
  /-- The bytes end after a RUN's length byte. -/
  | runSymbolMissing
  /-- The bytes end after a marker. -/
  | litCountMissing
  /-- The bytes end with fewer symbols than a LIT's count says. -/
  | litSymbolsMissing
deriving DecidableEq, Repr

/-- The number a length or count byte stands for: the unsigned value, no sign, scale, bias or offset (rule R74). -/
def countOf (v : Byte) : Nat := v.toNat

/-- Reads the token that stands at the front of the bytes and answers it with the bytes after it. The first
element alone tells the kind, all 8 bits compared with the marker (rule R71); a LIT's second element is its count
(rule R75). -/
def decode : List Byte → Except DecodeError (Instr × List Byte)
  | [] => .error .noElement
  | m :: rest =>
    if m = Config.marker then
      match rest with
      | [] => .error .litCountMissing
      | c :: body =>
        if countOf c ≤ body.length then .ok (.lit c (body.take (countOf c)), body.drop (countOf c))
        else .error .litSymbolsMissing
    else
      match rest with
      | [] => .error .runSymbolMissing
      | s :: rest' => .ok (.run m s, rest')

/-- The elements of a token in order (formats `T-RUN`, `T-LIT`, rules R72, R73; element order, rule R55); none
for an event (rule R83). -/
def encode : Instr → Option (List Byte)
  | .lit c syms => some (Config.marker :: c :: syms)
  | .run n s => some [n, s]
  | .encReset => none
  | .encSym _ => none
  | .encEnd => none
  | .decReset => none
  | .decElem _ => none
  | .decEnd => none

/-- The elements of a token; an event has none. -/
def elementsOf (i : Instr) : List Byte := (encode i).getD []

/-- What a token decodes to, `sem` of rule R135: `sem(RUN n, s) = s^n`, `sem(LIT c, s1..sc) = [s1..sc]`. An event
is no token and decodes to nothing. -/
def sem : Instr → List Byte
  | .lit _ syms => syms
  | .run n s => List.replicate (countOf n) s
  | .encReset => []
  | .encSym _ => []
  | .encEnd => []
  | .decReset => []
  | .decElem _ => []
  | .decEnd => []

/-- Splits bytes into tokens from left to right (rule R80), at most `fuel` of them; every token takes at least two
elements, so the number of bytes is always fuel enough. -/
def splitTokens : Nat → List Byte → Except DecodeError (List Instr)
  | _, [] => .ok []
  | 0, _ :: _ => .error .noElement
  | fuel + 1, m :: rest =>
    match decode (m :: rest) with
    | .error e => .error e
    | .ok (k, rest') =>
      match splitTokens fuel rest' with
      | .error e => .error e
      | .ok ks => .ok (k :: ks)

/-- `tokens(t)` of 42_properties.md: the split of a stream into its tokens, or how the stream is truncated. -/
def tokens (t : List Byte) : Except DecodeError (List Instr) := splitTokens t.length t

/-- A stream is well-formed when it is a concatenation of complete tokens (rule R80). -/
def wellFormedStream (t : List Byte) : Bool :=
  match tokens t with
  | .ok _ => true
  | .error _ => false

/-- `decode(t)` of rule R135 (the function on whole streams): the symbols of every token, in order; no value for a
stream that is not well-formed. -/
def decodeStream (t : List Byte) : Option (List Byte) :=
  match tokens t with
  | .ok ks => some (ks.flatMap sem)
  | .error _ => none

/-- The bytes of a number, first byte in bits 7..0, the next in bits 15..8, and so on. -/
def bytesOfNat : Nat → Nat → List Byte
  | 0, _ => []
  | k + 1, w => BitVec.ofNat 8 w :: bytesOfNat k (w / 256)

/-- The longest token: marker, count and 255 symbols (rule R73). -/
def longestToken : Nat := 257

/-- The bytes of an opcode-table word: `nbits` bits of `w`, then zeros up to the longest token. -/
def tableBytes (nbits w : Nat) : List Byte :=
  let k := (nbits + 7) / 8
  bytesOfNat k (w % 2 ^ nbits) ++ List.replicate (longestToken - k) 0

/-- What the decoder reads from an opcode-table word of `nbits` bits. -/
def decodeTableWord (nbits w : Nat) : Option Instr :=
  match decode (tableBytes nbits w) with
  | .ok (i, _) => some i
  | .error _ => none

end Sys2Proof
end

