-- ==== Sys2Proof/Machine/Operands.lean ====
section
/-! DEFINITION. Every operand form: the byte operand of a data event stands for itself (rule R96, R123), the length and
count bytes for their unsigned value (rule R74), the literal queue for its first `q_len` entries (rule R24), a token for
its elements (rules R72, R73), a stream's front for the elements before the first end mark (rule R51). -/

namespace Sys2Proof.Machine

/-- The symbols a run of length byte `n` stands for: `s^n`; `n = 0` is no symbol (rule R74). -/
def runSymbols (n s : Byte) : List Byte := List.replicate (countOf n) s

/-- Elements as stream items (rule R51). -/
def items (vs : List Byte) : List Item := vs.map .elem

/-- The elements of a RUN token, length first (rules R72, R93). -/
def runElements (n s : Byte) : List Byte := [n, s]

/-- The elements of a LIT token of count byte `c`: marker, count, symbols (rules R73, R94). -/
def litElements (c : Byte) (syms : List Byte) : List Byte := Config.marker :: c :: syms

/-- The queue read out in order: `q_mem[0], …, q_mem[q_len-1]`, oldest first (rule R24). -/
def EncState.queue (e : EncState) : List Byte := e.qMem.toList.take (countOf e.qLen)

/-- The pending sequence of rule R30: the queue if it is not empty, otherwise `pat^rl`. -/
def EncState.pending (e : EncState) : List Byte :=
  if e.qLen ≠ 0 then e.queue else runSymbols e.rl e.pat

/-- The elements at the front of a stream, up to its first end mark. -/
def leadingElements : List Item → List Byte
  | [] => []
  | .elem v :: rest => v :: leadingElements rest
  | .eos :: _ => []

end Sys2Proof.Machine
end

