-- ==== Sys2Proof/Machine/Ops.lean ====
section
/-! DEFINITION. The shared operations over registers and streams: `Out` and `OutEOS` (rules R53, R54), the queue's
append and clear (rule R24), the connection of the units (rule R54), the emitter primitives (rules R93, R94), the read of the pattern (rule R22), taking the one
exception (rule R161), and the re-initialisations of the two units (rules R40, R95, R114, R122, R131). -/

namespace Sys2Proof.Machine

/-- Goes on with `k` from the next state; a fault or a refusal stays. -/
def andThen (r : Result) (k : State → Result) : Result :=
  match r with
  | .next s => k s
  | .fault f => .fault f
  | .refused f => .refused f

/-- Writes ENC's registers. -/
def State.setEnc (s : State) (e : EncState) : State := { s with enc := e }

/-- Writes DEC's registers. -/
def State.setDec (s : State) (d : DecState) : State := { s with dec := d }

/-- Appends items at the tail of `ENC.out`: `Out` and `OutEOS` of ENC (rules R53, R54). -/
def State.putEnc (s : State) (xs : List Item) : State := { s with encOut := s.encOut ++ xs }

/-- Appends items at the tail of `DEC.out`: `Out` and `OutEOS` of DEC (rules R53, R54). -/
def State.putDec (s : State) (xs : List Item) : State := { s with decOut := s.decOut ++ xs }

/-- The connection of `ENC.out` to `DEC.in` carries the next item it has not carried yet, an element or the end mark, to the
tail of `DEC.in`; with none there, nothing (rules R54, R153; log entry 17). `ENC.out` keeps the item (rule R53), and nothing
goes the other way (rule R64). -/
def passItem (s : State) : State :=
  match s.encOut[s.passed]? with
  | none => s
  | some x => { s with decIn := s.decIn ++ [x], passed := s.passed + 1 }

/-- Reads `ENC.pat`; while `pv = 0` the read is a fault of the model (rule R22). -/
def readPat (s : State) (k : Byte → Result) : Result :=
  if s.enc.pv then k s.enc.pat else .fault .patternReadWhileNone

/-- Writes entry `i` of `ENC.q_mem`; no rule writes outside the buffer (rule R24). -/
def queueWrite (m : Vector Byte queueCapacity) (i : Nat) (b : Byte) : Vector Byte queueCapacity :=
  m.setIfInBounds i b

/-- `EmitRun(n, s)` of rule R93. -/
def emitRun (n sym : Byte) (s : State) : State := s.putEnc (items (runElements n sym))

/-- `EmitLit()` of rule R94: the whole queue as one LIT token; the queue is not cleared here. -/
def emitLit (s : State) : State := s.putEnc (items (litElements s.enc.qLen s.enc.queue))

/-- The queue's clear: `q_len <- 0` (rule R24). -/
def clearQueue (s : State) : State := s.setEnc { s.enc with qLen := 0 }

/-- The queue's append: `q_mem[q_len] <- b; q_len <- q_len + 1` (rules R24, R97). -/
def enqueue (b : Byte) (s : State) : State :=
  s.setEnc { s.enc with qMem := queueWrite s.enc.qMem (countOf s.enc.qLen) b, qLen := s.enc.qLen + 1 }

/-- `pat <- b; pv <- 1` of a mismatch step (rule R100). -/
def latchPattern (b : Byte) (s : State) : State := s.setEnc { s.enc with pat := b, pv := true }

/-- `rl <- rl + n`. -/
def addRun (n : Byte) (s : State) : State := s.setEnc { s.enc with rl := s.enc.rl + n }

/-- Emits the run `(rl, pat)` as it stands: `EmitRun(rl, pat)` (rules R99, R104, R113). -/
def emitPendingRun (s : State) : Result := readPat s fun p => .next (emitRun s.enc.rl p s)

/-- A run flush: `EmitRun(rl, pat); rl <- 0` (rules R99, R104). -/
def flushRun (s : State) : Result :=
  andThen (emitPendingRun s) fun t => .next (t.setEnc { t.enc with rl := 0 })

/-- A literal flush: `EmitLit(); q_len <- 0` (rules R101, R105). -/
def flushLit (s : State) : State := clearQueue (emitLit s)

/-- ENC's registers as `ENC.RESET` and a completed call leave them: `pv`, `rl`, `q_len` at 0, `pat` and `q_mem`
unspecified (rules R40, R95, R114): free values, drawn by ENC's counter (log entry 4). -/
def encReinit (s : State) : State :=
  { s with
    enc := { pv := false, pat := Config.freePat s.encDraws, rl := 0,
             qMem := Vector.ofFn fun i => Config.freeQMem s.encDraws i.val, qLen := 0 },
    encDraws := s.encDraws + 1 }

/-- DEC's registers as `DEC.RESET` and a clean `DEC.END` leave them: `phase = HEAD`, `cnt = 0`, `fphase` unspecified
(rules R40, R122, R131): a free value, drawn by DEC's counter (log entry 5). There is no return from the exception; this,
through `DEC.RESET`, is the only way out of `FAULT` (rule R169). -/
def decReinit (s : State) : State :=
  { s with
    dec := { phase := .head, cnt := 0, fphase := Config.freeFphase s.decDraws },
    decDraws := s.decDraws + 1 }

/-- Taking the one exception, `raise MalformedStream(p, c)` of rule R161 with `p` the current phase and `c` the current
`cnt`: `fphase <- p; phase <- FAULT`; `cnt` and `DEC.out` stay (P161). -/
def raiseMalformedStream (s : State) : State :=
  s.setDec { s.dec with fphase := s.dec.phase.code, phase := .fault }

end Sys2Proof.Machine
end

