-- ==== Sys2Proof/Machine/Enc.lean ====
section
/-! DEFINITION. The meanings of the three ENC events (40_encoder.md, pseudocode P97 and P110). -/

namespace Sys2Proof.Machine

/-- `ENC.RESET` (rule R95): the initial values; nothing is emitted, a pending run or queue is discarded. -/
def execEncReset (s : State) : Result := .next (encReinit s)

/-- What a match step does with the queue before it counts the current symbol (P97): two or more symbols are flushed as
a literal block (rule R101); exactly one is discarded and counted into the run (rule R102); an empty queue is left alone
(rule R103). -/
def absorbQueue (s : State) : State :=
  if 2 ≤ countOf s.enc.qLen then flushLit s
  else if s.enc.qLen = 1 then addRun 1 (clearQueue s)
  else s

/-- The 254 flush at the end of a match step (rule R104). -/
def splitRun (s : State) : Result := if s.enc.rl = Config.maxRun then flushRun s else .next s

/-- A match step (P97, source step 1): rules R101, R102, R103, the current symbol's count, then rule R104. -/
def encMatchStep (s : State) : Result := splitRun (addRun 1 (absorbQueue s))

/-- The run flush of a mismatch step: only if `rl > 0` (rule R99). -/
def endRun (s : State) : Result := if s.enc.rl ≠ 0 then flushRun s else .next s

/-- The queue-full flush of a mismatch step: only if `q_len = LIT_MAX` (rule R105, the spec's decision D7). -/
def makeRoom (s : State) : State := if s.enc.qLen = Config.litMax then flushLit s else s

/-- A mismatch step (P97, source step 2; rule R100): run flush, queue-full flush, append, new pattern. -/
def encMismatchStep (b : Byte) (s : State) : Result :=
  andThen (endRun s) fun t => .next (latchPattern b (enqueue b (makeRoom t)))

/-- `ENC.SYM(b)` (rules R96, R97): the match predicate is evaluated on the state before the step. -/
def execEncSym (b : Byte) (s : State) : Result :=
  if s.enc.matchesPat b then encMatchStep s else encMismatchStep b s

/-- The last token of a call (P110): none if no symbol was consumed (rule R111, the spec's decision D4), the queue as a
literal block (rule R112), or else the run, a zero-length one only if `EMIT_ZERO_RUN` (rule R113). -/
def emitLastToken (zeroRun : Bool) (s : State) : Result :=
  if s.enc.pv = false then .next s
  else if s.enc.qLen ≠ 0 then .next (emitLit s)
  else if s.enc.rl ≠ 0 ∨ zeroRun = true then emitPendingRun s
  else .next s

/-- `ENC.END` for either value of `EMIT_ZERO_RUN`: the last token, the end mark, the reset values (P110, rule R114). -/
def encFinish (zeroRun : Bool) (s : State) : Result :=
  andThen (emitLastToken zeroRun s) fun t => .next (encReinit (t.putEnc [.eos]))

/-- `ENC.END` (rule R110) of this hardware: `EMIT_ZERO_RUN` is true (rule R6). -/
def execEncEnd (s : State) : Result := encFinish Config.emitZeroRun s

end Sys2Proof.Machine
end

