-- ==== Sys2Proof/Machine/Dec.lean ====
section
/-! DEFINITION. The meanings of the three DEC events (41_decoder.md, pseudocode P123 and P130). -/

namespace Sys2Proof.Machine

/-- `DEC.RESET` (rule R122): the initial values; nothing is emitted. -/
def execDecReset (s : State) : Result := .next (decReinit s)

/-- What DEC does with one element, by phase (P123): rules R124 and R125 in `HEAD`, R126 in `SYM`, R127 in `COUNT`, R128
in `BODY`, R129 in `FAULT`. -/
def takeElement (v : Byte) (s : State) : State :=
  match s.dec.phase with
  | .head =>
    if v = Config.marker then s.setDec { s.dec with phase := .count }
    else s.setDec { s.dec with cnt := v, phase := .sym }
  | .sym => (s.putDec (items (runSymbols s.dec.cnt v))).setDec { s.dec with phase := .head }
  | .count =>
    if v = 0 then s.setDec { s.dec with phase := .head }
    else s.setDec { s.dec with cnt := v, phase := .body }
  | .body =>
    (s.putDec (items [v])).setDec
      { s.dec with cnt := s.dec.cnt - 1, phase := if s.dec.cnt - 1 = 0 then .head else .body }
  | .fault => s

/-- `DEC.ELEM(v)` (rule R123). -/
def execDecElem (v : Byte) (s : State) : Result := .next (takeElement v s)

/-- `DEC.END` (rule R130, P130): clean completion in `HEAD` (rule R131), `MalformedStream` inside a token (rule R132),
ignored in `FAULT` (rule R133). -/
def execDecEnd (s : State) : Result :=
  match s.dec.phase with
  | .head => .next (decReinit (s.putDec [.eos]))
  | .sym => .next (raiseMalformedStream s)
  | .count => .next (raiseMalformedStream s)
  | .body => .next (raiseMalformedStream s)
  | .fault => .next s

end Sys2Proof.Machine
end

