-- ==== Sys2Proof/Machine/Token.lean ====
section
/-! DEFINITION. The meanings of the two tokens, as rule R134 derives them: the token's elements taken by DEC one after the
other. From phase `HEAD` that is the big step of rule R134; in another phase the same bytes are what their position makes
of them (rule R77; log entry 7). -/

namespace Sys2Proof.Machine

/-- DEC takes elements in order, one `DEC.ELEM` each. -/
def takeElements (vs : List Byte) (s : State) : State := vs.foldl (fun t v => takeElement v t) s

/-- `RUN n, s` (rules R72, R126, R134). -/
def execRun (n sym : Byte) (s : State) : Result := .next (takeElements (runElements n sym) s)

/-- `LIT c, s1 ... sc` (rules R73, R128, R134). -/
def execLit (c : Byte) (syms : List Byte) (s : State) : Result := .next (takeElements (litElements c syms) s)

end Sys2Proof.Machine
end

