-- ==== Sys2Proof/Machine/Dispatch.lean ====
section
/-! DEFINITION. One arm per instruction, each a direct call of its meaning. -/

namespace Sys2Proof.Machine

def exec (i : Instr) (s : State) : Host.Outcome State Fault Refusal :=
  match i with
  | .lit c syms => Sys2Proof.Machine.execLit c syms s
  | .run n sym => Sys2Proof.Machine.execRun n sym s
  | .encReset => Sys2Proof.Machine.execEncReset s
  | .encSym b => Sys2Proof.Machine.execEncSym b s
  | .encEnd => Sys2Proof.Machine.execEncEnd s
  | .decReset => Sys2Proof.Machine.execDecReset s
  | .decElem v => Sys2Proof.Machine.execDecElem v s
  | .decEnd => Sys2Proof.Machine.execDecEnd s

end Sys2Proof.Machine
end

