-- ==== Sys2Proof/Machine/Fetch.lean ====
section
/-! DEFINITION. What a turn delivers: the event or token it stands for and the streams after it has been taken (rules R52,
R54, R167; log entries 6 and 7). -/

namespace Sys2Proof.Machine

/-- The next item of `ENC.in` as an event, taken from the stream (rule R52): an element is `ENC.SYM`, the end mark
`ENC.END`; with nothing there, no event. -/
def fetchEncItem (s : State) : Option Instr × State :=
  match s.encIn with
  | [] => (none, s)
  | .elem b :: rest => (some (.encSym b), { s with encIn := rest })
  | .eos :: rest => (some .encEnd, { s with encIn := rest })

/-- The next item of `DEC.in` as an event, taken from the stream (rule R52): an element is `DEC.ELEM`, the end mark
`DEC.END`; with nothing there, no event. -/
def fetchDecItem (s : State) : Option Instr × State :=
  match s.decIn with
  | [] => (none, s)
  | .elem v :: rest => (some (.decElem v), { s with decIn := rest })
  | .eos :: rest => (some .decEnd, { s with decIn := rest })

/-- The token at the front of `DEC.in`, all its elements taken from the stream; where no complete token stands there, the
next item alone (log entry 7). -/
def fetchDecToken (s : State) : Option Instr × State :=
  match decode (leadingElements s.decIn) with
  | .ok (i, _) => (some i, { s with decIn := s.decIn.drop (elementsOf i).length })
  | .error _ => fetchDecItem s

/-- What a turn delivers. A `RESET` that coincides with an item wins and the item is dropped (rule R167). A turn of the
connection delivers no event: it moves an item (rule R54). -/
def fetch (t : Turn) (s : State) : Option Instr × State :=
  match t with
  | .encReset drops => (some .encReset, if drops then { s with encIn := s.encIn.tail } else s)
  | .encItem => fetchEncItem s
  | .decReset drops => (some .decReset, if drops then { s with decIn := s.decIn.tail } else s)
  | .decItem => fetchDecItem s
  | .decToken => fetchDecToken s
  | .passItem => (none, passItem s)

/-- Where `step` fetches its next instruction from when a turn is `decToken`: the front of `DEC.in`. -/
def loadToken (i : Instr) (s : State) : State :=
  { s with decIn := items (elementsOf i) ++ s.decIn, turns := .decToken :: s.turns }

end Sys2Proof.Machine
end

