-- ==== Sys2Proof/Machine/Step.lean ====
section
/-! DEFINITION. One step of the machine: the caller's next turn delivers one event or token, which is executed atomically
(rules R12, R58, R61). -/

namespace Sys2Proof.Machine

/-- One step. With no turn pending, or a turn with nothing to deliver, the units hold their state (rule R177; log entry
6). -/
def step (s : State) : Host.Outcome State Fault Refusal :=
  match s.turns with
  | [] => .next s
  | t :: rest =>
    match fetch t { s with turns := rest } with
    | (none, s') => .next s'
    | (some i, s') => exec i s'

/-- The state with an opcode-table word's instruction at the front of `DEC.in` and a turn that executes it (log entry
6). -/
def State.withFetchWord (s : State) (nbits w : Nat) : State :=
  match decodeTableWord nbits w with
  | some i => loadToken i s
  | none => { s with decIn := items (tableBytes nbits w) ++ s.decIn, turns := .decToken :: s.turns }

end Sys2Proof.Machine
end

