-- ==== Sys2Proof/Safety.lean ====
section
/-! DEFINITION. The terms claims are stated in: the invariants of 10_state.md, runs of steps and of instructions, whole
calls (rules R15, R19, R90, R120), `pack` as the machine computes it, and what the caller can tell apart (rule R42). -/

namespace Sys2Proof.Machine

/-! ### Invariants -/

/-- The invariants of ENC that hold in every state a run from reset reaches (rules R26, R27, R28, R29, R31). -/
structure EncState.Inv (e : EncState) : Prop where
  /-- Rule R26: a pending run and a pending queue never coexist. -/
  run_xor_queue : e.rl ≠ 0 → e.qLen = 0
  /-- Rule R27: a non-empty queue ends in the pattern, which is valid. -/
  queue_last : e.qLen ≠ 0 → e.pv = true ∧ e.queue.getLast? = some e.pat
  /-- Rule R28: no two neighbouring elements of the queue are equal. -/
  queue_chain : e.queue.IsChain (· ≠ ·)
  /-- Rule R29: with no pattern there is no run and no queue. -/
  none_idle : e.pv = false → e.rl = 0 ∧ e.qLen = 0
  /-- Rule R31: the run length is at most 253 between steps. -/
  rl_le : e.rl.toNat ≤ 253

/-- The invariants of DEC that hold in every state a run from reset reaches (rules R36, R38, R162). -/
structure DecState.Inv (d : DecState) : Prop where
  /-- Rule R38: in `BODY`, `1 ≤ cnt`. -/
  body_pos : d.phase = .body → d.cnt ≠ 0
  /-- Rule R38: in `SYM`, `cnt ≤ 254`. -/
  sym_le : d.phase = .sym → d.cnt ≠ 255
  /-- Rules R36, R162: in `FAULT`, `fphase` is the code of `SYM`, `COUNT` or `BODY`, with `cnt` in that phase's range. -/
  fault_cause : d.phase = .fault →
    (d.fphase = 1 ∧ d.cnt ≠ 255) ∨ d.fphase = 2 ∨ (d.fphase = 3 ∧ d.cnt ≠ 0)

/-- The invariant of the machine. -/
structure State.Inv (s : State) : Prop where
  /-- ENC's invariants. -/
  enc : s.enc.Inv
  /-- DEC's invariants. -/
  dec : s.dec.Inv
  /-- The connection has carried no more items than ENC has appended (rule R54). -/
  passed_le : s.passed ≤ s.encOut.length

/-- ENC is in its reset state, as far as the spec fixes it (rule R40): shape `IDLE` of rule R32. -/
structure EncState.Idle (e : EncState) : Prop where
  /-- No pattern. -/
  pv : e.pv = false
  /-- No run. -/
  rl : e.rl = 0
  /-- No queue. -/
  qLen : e.qLen = 0

/-- DEC is in its reset state, as far as the spec fixes it (rule R40). -/
structure DecState.Idle (d : DecState) : Prop where
  /-- Phase `HEAD`. -/
  phase : d.phase = .head
  /-- Count 0. -/
  cnt : d.cnt = 0

/-! ### Runs -/

/-- `k` steps, stopping at the first fault or refusal. -/
def stepN : Nat → State → Result
  | 0, s => .next s
  | k + 1, s => andThen (step s) (stepN k)

/-- Instructions executed one after the other, stopping at the first fault or refusal. -/
def execAll : List Instr → State → Result
  | [], s => .next s
  | i :: rest, s => andThen (exec i s) (execAll rest)

/-- The `ENC.SYM` events of a `pack` call. -/
def encSyms (bs : List Byte) : List Instr := bs.map Instr.encSym

/-- The `DEC.ELEM` events of an `unpack` call. -/
def decElems (vs : List Byte) : List Instr := vs.map Instr.decElem

/-- A `pack` call (rule R90) for either value of `EMIT_ZERO_RUN`: one `ENC.SYM` per symbol, then `ENC.END`. -/
def encCall (zeroRun : Bool) (bs : List Byte) (s : State) : Result :=
  andThen (execAll (encSyms bs) s) (encFinish zeroRun)

/-- An `unpack` call (rule R120): one `DEC.ELEM` per element, then `DEC.END`. -/
def decCall (vs : List Byte) (s : State) : Result := execAll (decElems vs ++ [.decEnd]) s

/-- The elements among stream items, end marks left out. -/
def elements (xs : List Item) : List Byte :=
  xs.filterMap fun x => match x with
    | .elem v => some v
    | .eos => none

/-- `pack(bs)` (rule R90): the elements ENC appends to `ENC.out` in a call from reset, for either value of
`EMIT_ZERO_RUN`. -/
def pack (zeroRun : Bool) (bs : List Byte) : List Byte :=
  match encCall zeroRun bs .reset with
  | .next s => elements s.encOut
  | .fault _ => []
  | .refused _ => []

/-! ### The two units chained -/

/-- The items of `ENC.out` that the connection has not carried yet (rule R54). -/
def State.notPassed (s : State) : List Item := s.encOut.drop s.passed

/-- A turn by which the two units of rule R153 get on with one call: ENC or DEC takes what is next, or the connection
carries an item; no `RESET`. -/
def Turn.chains : Turn → Bool
  | .encReset _ => false
  | .encItem => true
  | .decReset _ => false
  | .decItem => true
  | .decToken => true
  | .passItem => true

/-- Both units in their reset states, connected, with nothing on its way and the input `bs` and its end mark to come: the
start of rule R153. -/
structure ChainStart (bs : List Byte) (s : State) : Prop where
  /-- ENC is in its reset state. -/
  enc : s.enc.Idle
  /-- DEC is in its reset state. -/
  dec : s.dec.Idle
  /-- The input of the call. -/
  encIn : s.encIn = bs.map Item.elem ++ [Item.eos]
  /-- Nothing waits for DEC. -/
  decIn : s.decIn = []
  /-- Nothing of an earlier call is still to be carried. -/
  passed : s.passed = s.encOut.length

/-- How the chained units stand at a moment `t` of the call on `bs` that began in `s` (rule R153): DEC has taken `taken`, of
which the elements `p` are complete tokens covering `ps` and `q` is what there is of the token DEC is inside; `qs` is what
that token and the elements on their way to DEC cover. -/
structure ChainedAt (bs : List Byte) (s t : State) (taken : List Item) (p q ps qs : List Byte) : Prop where
  /-- Item for item and in order, DEC has taken, waits for, or will be passed what ENC has appended. -/
  itemForItem : t.encOut = s.encOut ++ taken ++ t.decIn ++ t.notPassed
  /-- The elements DEC has taken. -/
  taken_eq : elements taken = p ++ q
  /-- The complete tokens among them. -/
  complete : decodeStream p = some ps
  /-- DEC is inside a token exactly if part of one has been taken. -/
  inside : q = [] ↔ t.dec.phase = .head
  /-- That part is no complete token. -/
  incomplete : q ≠ [] → ∃ e, decode q = .error e
  /-- What is on its way completes it and is well-formed. -/
  coming : decodeStream (q ++ elements (t.decIn ++ t.notPassed)) = some qs
  /-- What `DEC.out` has gained: the complete tokens' symbols, those of an unfinished block that did arrive, and the end
  mark once DEC has taken it. -/
  decOut : t.decOut = s.decOut ++ (ps ++ q.drop 2).map Item.elem ++ (if Item.eos ∈ taken then [Item.eos] else [])
  /-- These symbols are a prefix of what is covered. -/
  isPrefix : ps ++ q.drop 2 <+: ps ++ qs
  /-- The symbols ENC has consumed are those covered and those pending (rule R30); the rest of the input is still to
  come. -/
  covers : bs = ps ++ qs ++ t.enc.pending ++ elements t.encIn

/-! ### What the caller can tell apart -/

/-- Two ENC states that differ at most where rules R22 and R24 leave a register unspecified: `pat` while `pv = 0`,
and `q_mem` at and above `q_len`. -/
structure EncState.Same (e f : EncState) : Prop where
  /-- Same valid bit. -/
  pv : e.pv = f.pv
  /-- Same pattern, where there is one. -/
  pat : e.pv = true → e.pat = f.pat
  /-- Same run length. -/
  rl : e.rl = f.rl
  /-- Same fill count. -/
  qLen : e.qLen = f.qLen
  /-- Same queue. -/
  queue : e.queue = f.queue

/-- Two DEC states that differ at most where rules R34, R36 and R162 leave a register without meaning: `cnt` in `HEAD`
and `COUNT` and after a fault in `COUNT`, and `fphase` outside `FAULT`. -/
structure DecState.Same (d e : DecState) : Prop where
  /-- Same phase. -/
  phase : d.phase = e.phase
  /-- Same count, where a rule reads it. -/
  cnt : d.phase = .sym ∨ d.phase = .body → d.cnt = e.cnt
  /-- Same cause of a fault, and the same frozen count where it means something. -/
  fault : d.phase = .fault → d.fphase = e.fphase ∧ (d.fphase ≠ 2 → d.cnt = e.cnt)

/-- Two machine states that differ at most in unspecified registers and in how often free values have been drawn. -/
structure State.Same (s t : State) : Prop where
  /-- ENC. -/
  enc : s.enc.Same t.enc
  /-- DEC. -/
  dec : s.dec.Same t.dec
  /-- `ENC.in`. -/
  encIn : s.encIn = t.encIn
  /-- `ENC.out`. -/
  encOut : s.encOut = t.encOut
  /-- `DEC.in`. -/
  decIn : s.decIn = t.decIn
  /-- `DEC.out`. -/
  decOut : s.decOut = t.decOut
  /-- The caller's turns. -/
  turns : s.turns = t.turns
  /-- The items the connection has carried. -/
  passed : s.passed = t.passed

/-- Two outcomes of the same kind whose next states are the same but for unspecified registers. -/
inductive SameOutcome : Result → Result → Prop where
  /-- Both go on. -/
  | next {s t : State} (h : s.Same t) : SameOutcome (.next s) (.next t)
  /-- Both stop with the same fault. -/
  | fault (f : Fault) : SameOutcome (.fault f) (.fault f)
  /-- Both are refused for the same reason. -/
  | refused (r : Refusal) : SameOutcome (.refused r) (.refused r)

end Sys2Proof.Machine
end

