-- ==== Sys2Proof/Certificates/Slice0/Obligations.lean ====
section
/-! DEFINITION. What is stated of the machine, for the provers. A docstring names the rule a statement formalises; where a
statement rests on a choice the spec marks as its own (a decision D<n>, a derived rule) or on a log entry of the model, it
says so. -/

open Sys2Proof Sys2Proof.Machine

/-! ### DEC: one element -/

/-- Rule R124: in `HEAD` an element other than 0xFF is a run length. -/
def Obligations.DecElemInHeadLatchesRunLength : Prop :=
  ∀ (v : Byte) (s : State), s.dec.phase = .head → v ≠ 0xFF →
    exec (.decElem v) s = .next { s with dec := { s.dec with phase := .sym, cnt := v } }

/-- Rule R125: in `HEAD` the element 0xFF is the marker; `cnt` is not written. -/
def Obligations.DecElemInHeadTakesMarker : Prop :=
  ∀ (s : State), s.dec.phase = .head →
    exec (.decElem 0xFF) s = .next { s with dec := { s.dec with phase := .count } }

/-- Rule R126: in `SYM` the element is appended `cnt` times, whatever its value; `cnt` is kept. -/
def Obligations.DecElemInSymExpandsRun : Prop :=
  ∀ (v : Byte) (s : State), s.dec.phase = .sym →
    exec (.decElem v) s = .next
      { s with dec := { s.dec with phase := .head },
               decOut := s.decOut ++ List.replicate s.dec.cnt.toNat (Item.elem v) }

/-- Rule R127 (its clause on a zero count is the spec's own derivation): in `COUNT` the element is the number of symbols
that follow. -/
def Obligations.DecElemInCountLatchesLiteralCount : Prop :=
  ∀ (v : Byte) (s : State), s.dec.phase = .count →
    exec (.decElem v) s = .next
      { s with dec := if v = 0 then { s.dec with phase := .head } else { s.dec with phase := .body, cnt := v } }

/-- Rule R128: in `BODY` the element is appended verbatim and counted; the count never wraps where rule R38 holds. -/
def Obligations.DecElemInBodyCopiesSymbol : Prop :=
  ∀ (v : Byte) (s : State), s.dec.phase = .body → s.dec.Inv →
    exec (.decElem v) s = .next
      { s with dec := { s.dec with phase := if s.dec.cnt = 1 then .head else .body, cnt := s.dec.cnt - 1 },
               decOut := s.decOut ++ [Item.elem v] } ∧
    (s.dec.cnt - 1).toNat + 1 = s.dec.cnt.toNat

/-! ### DEC: end, exception, reset -/

/-- Rule R131: `END` in `HEAD` appends the end mark and nothing else, and installs the reset values; `fphase` becomes
unspecified (rule R40), a free value. -/
def Obligations.DecEndInHeadCompletesCall : Prop :=
  ∀ (s : State), s.dec.phase = .head →
    ∃ f : PhaseCode, exec .decEnd s = .next
      { s with dec := { phase := .head, cnt := 0, fphase := f }, decOut := s.decOut ++ [Item.eos],
               decDraws := s.decDraws + 1 }

/-- Rules R132, R161 (the spec's decision D9): `END` inside a token takes `MalformedStream`: `fphase` saves the phase
(codes of rule R33), `phase` becomes `FAULT`, and `cnt`, `DEC.out` and all else stay. -/
def Obligations.DecEndInsideTokenTakesMalformedStream : Prop :=
  ∀ (s : State) (p : Phase), s.dec.phase = p → p ≠ .head → p ≠ .fault →
    exec .decEnd s = .next
      { s with dec := { phase := .fault, cnt := s.dec.cnt,
                        fphase := if p = .sym then 1 else if p = .count then 2 else 3 } }

/-- Rules R129, R133, R164 (decisions D9, D19): in `FAULT` every `ELEM`, every `END` and every token is ignored. -/
def Obligations.FaultedDecIgnoresAllButReset : Prop :=
  ∀ (s : State) (v c n : Byte) (syms : List Byte), s.dec.phase = .fault →
    exec (.decElem v) s = .next s ∧ exec .decEnd s = .next s ∧
    exec (.run n v) s = .next s ∧ exec (.lit c syms) s = .next s

/-- Rule R122 (decision D11): `RESET` of DEC installs the initial values from any phase and appends nothing; `fphase`
becomes unspecified, a free value. -/
def Obligations.DecResetInstallsInitialValues : Prop :=
  ∀ (s : State), ∃ f : PhaseCode, exec .decReset s = .next
    { s with dec := { phase := .head, cnt := 0, fphase := f }, decDraws := s.decDraws + 1 }

/-- Rules R160, R163 (decision D9, derived): the one exception is raised by `DEC.END` inside a token and by nothing
else, over every event and token. -/
def Obligations.OnlyDecEndInsideTokenRaises : Prop :=
  ∀ (i : Instr) (s t : State), exec i s = .next t → s.dec.err = false →
    (t.dec.err = true ↔ i = .decEnd ∧ s.dec.phase ≠ .head)

/-- Rules R164, R169 (decisions D9, D19): while DEC is in `FAULT`, every step other than a `RESET` of DEC leaves all of
its registers and its output as they are. -/
def Obligations.FaultFreezesDecUntilReset : Prop :=
  ∀ (s t : State), s.dec.phase = .fault → step s = .next t →
    (t.dec = s.dec ∧ t.decOut = s.decOut) ∨
    ((∃ d rest, s.turns = .decReset d :: rest) ∧ t.dec.phase = .head ∧ t.dec.cnt = 0 ∧ t.decOut = s.decOut)

/-! ### DEC: tokens and whole streams -/

/-- Rule R134 (derived): from `HEAD`, `RUN n, s` consumes both its elements, appends `s^n` and ends in `HEAD`; only `cnt`,
which no rule reads there (rule R34), keeps the length. -/
def Obligations.RunTokenBigStep : Prop :=
  ∀ (n sym : Byte) (s : State), (Instr.run n sym).wf = true → s.dec.phase = .head →
    exec (.run n sym) s = .next
      { s with dec := { s.dec with cnt := n }, decOut := s.decOut ++ List.replicate n.toNat (Item.elem sym) }

/-- Rule R134 (derived): from `HEAD`, `LIT c, s1 ... sc` consumes all its elements, appends its symbols and ends in
`HEAD`; `cnt` is left at 0, or untouched if `c = 0`. -/
def Obligations.LitTokenBigStep : Prop :=
  ∀ (c : Byte) (syms : List Byte) (s : State), (Instr.lit c syms).wf = true → s.dec.phase = .head →
    exec (.lit c syms) s = .next
      { s with dec := { s.dec with cnt := if c = 0 then s.dec.cnt else 0 },
               decOut := s.decOut ++ syms.map Item.elem }

/-- Rules R135, R136 (derived; decision D23): from any state with DEC in `HEAD`, an `unpack` call on any well-formed
stream appends exactly `decode` of it and the end mark, ends in the reset state, and changes nothing of ENC. -/
def Obligations.UnpackCallDecodesEveryWellFormedStream : Prop :=
  ∀ (vs bs : List Byte) (s : State), s.dec.phase = .head → decodeStream vs = some bs →
    ∃ f : PhaseCode, decCall vs s = .next
      { s with dec := { phase := .head, cnt := 0, fphase := f },
               decOut := s.decOut ++ bs.map Item.elem ++ [Item.eos], decDraws := s.decDraws + 1 }

/-- Rules R39, R81 (derived): after any elements, DEC's phase says whether they form a well-formed stream, and if not, in
which of the three ways they are truncated; `ELEM` alone never faults DEC. -/
def Obligations.DecPhaseTellsTruncation : Prop :=
  ∀ (vs : List Byte) (s : State), s.dec.phase = .head →
    ∃ t : State, execAll (decElems vs) s = .next t ∧
      (t.dec.phase = .head ↔ wellFormedStream vs = true) ∧
      (t.dec.phase = .sym ↔ tokens vs = .error .runSymbolMissing) ∧
      (t.dec.phase = .count ↔ tokens vs = .error .litCountMissing) ∧
      (t.dec.phase = .body ↔ tokens vs = .error .litSymbolsMissing)

/-- Rules R132, R162, R164 (decision D9): an `unpack` call on a stream that ends inside a token ends in `FAULT` without
an end mark; what was appended is `decode` of the complete tokens and the symbols of the unfinished block that did
arrive; `fphase` tells the case, and `cnt` the run length or the symbols still missing. -/
def Obligations.UnpackCallOnTruncatedStreamFaults : Prop :=
  ∀ (p q bs : List Byte) (e : DecodeError) (s : State), s.dec.phase = .head →
    decodeStream p = some bs → q ≠ [] → decode q = .error e →
    ∃ t : State, decCall (p ++ q) s = .next t ∧
      t = { s with dec := t.dec,
                   decOut := s.decOut ++ (bs ++ (if e = .litSymbolsMissing then q.drop 2 else [])).map Item.elem } ∧
      t.dec.phase = .fault ∧
      ((∃ n : Byte, q = [n] ∧ n ≠ 0xFF ∧ e = .runSymbolMissing ∧ t.dec.fphase = 1 ∧ t.dec.cnt = n) ∨
       (q = [0xFF] ∧ e = .litCountMissing ∧ t.dec.fphase = 2) ∨
       (∃ (c : Byte) (ss : List Byte), q = 0xFF :: c :: ss ∧ ss.length < c.toNat ∧ e = .litSymbolsMissing ∧
         t.dec.fphase = 3 ∧ t.dec.cnt.toNat + ss.length = c.toNat))

/-! ### ENC: the mismatch step -/

/-- Rule R98 (derived): the first symbol of a call is a mismatch whatever it is; it is queued, latched, and nothing is
emitted. -/
def Obligations.EncFirstSymbolIsQueued : Prop :=
  ∀ (b : Byte) (s : State), s.enc.Inv → s.enc.pv = false →
    exec (.encSym b) s = .next
      { s with enc := { pv := true, pat := b, rl := 0, qMem := queueWrite s.enc.qMem 0 b, qLen := 1 } }

/-- Rule R99: a mismatch step flushes the run it ends, with the old pattern, before anything else; with `rl = 0` nothing
is emitted for the run, the state right after a 254 flush included. -/
def Obligations.EncMismatchFlushesRun : Prop :=
  ∀ (b : Byte) (s : State), s.enc.Inv → s.enc.pv = true → b ≠ s.enc.pat →
    (s.enc.rl ≠ 0 →
      1 ≤ s.enc.rl.toNat ∧ s.enc.rl.toNat ≤ 253 ∧
      exec (.encSym b) s = .next
        { s with enc := { pv := true, pat := b, rl := 0, qMem := queueWrite s.enc.qMem 0 b, qLen := 1 },
                 encOut := s.encOut ++ [Item.elem s.enc.rl, Item.elem s.enc.pat] }) ∧
    (s.enc.rl = 0 → s.enc.qLen ≠ 255 →
      exec (.encSym b) s = .next
        { s with enc := { pv := true, pat := b, rl := 0,
                          qMem := queueWrite s.enc.qMem s.enc.qLen.toNat b, qLen := s.enc.qLen + 1 } })

/-- Rule R105 (decision D7): a mismatch step that finds the queue full emits it as one block of 255 and starts a fresh
queue with `b`. -/
def Obligations.EncMismatchFlushesFullQueue : Prop :=
  ∀ (b : Byte) (s : State), s.enc.Inv → b ≠ s.enc.pat → s.enc.qLen = 255 →
    exec (.encSym b) s = .next
      { s with enc := { pv := true, pat := b, rl := 0, qMem := queueWrite s.enc.qMem 0 b, qLen := 1 },
               encOut := s.encOut ++ (0xFF :: 0xFF :: s.enc.queue).map Item.elem }

/-- Rules R24, R100 (with decision D7 for the full queue): after a mismatch step the queue is the old one, or the empty
one if it had to be flushed, with `b` at its tail; no other entry of `q_mem` is written. -/
def Obligations.EncMismatchAppendsAtQueueTail : Prop :=
  ∀ (b : Byte) (s : State), s.enc.Inv → s.enc.matchesPat b = false →
    ∃ t : State, exec (.encSym b) s = .next t ∧
      t.enc.queue = (if s.enc.qLen = 255 then [] else s.enc.queue) ++ [b] ∧
      ∀ j : Fin queueCapacity, j.val ≠ (if s.enc.qLen = 255 then 0 else s.enc.qLen.toNat) →
        t.enc.qMem.get j = s.enc.qMem.get j

/-! ### ENC: the match step -/

/-- Rule R101 (decision D8): a match step that finds two or more symbols queued emits the whole queue as one block,
empties it, and counts only the current symbol. -/
def Obligations.EncMatchFlushesLiteral : Prop :=
  ∀ (b : Byte) (s : State), s.enc.Inv → s.enc.matchesPat b = true → 2 ≤ s.enc.qLen.toNat →
    exec (.encSym b) s = .next
      { s with enc := { s.enc with rl := 1, qLen := 0 },
               encOut := s.encOut ++ (0xFF :: s.enc.qLen :: s.enc.queue).map Item.elem }

/-- Rule R102: a match step that finds exactly one symbol queued emits nothing and counts two; the discarded symbol is
the pattern, so nothing is lost. -/
def Obligations.EncMatchReclassifiesSingleSymbol : Prop :=
  ∀ (b : Byte) (s : State), s.enc.Inv → s.enc.matchesPat b = true → s.enc.qLen = 1 →
    s.enc.queue = [b] ∧ s.enc.rl = 0 ∧
    exec (.encSym b) s = .next { s with enc := { s.enc with rl := 2, qLen := 0 } }

/-- Rule R103: a match step with an empty queue counts one more; output only where the 254 flush fires, which leaves
`rl` at 0. -/
def Obligations.EncMatchContinuesRun : Prop :=
  ∀ (b : Byte) (s : State), s.enc.Inv → s.enc.matchesPat b = true → s.enc.qLen = 0 →
    s.enc.rl.toNat ≤ 253 ∧
    exec (.encSym b) s = .next
      (if s.enc.rl = 253 then
        { s with enc := { s.enc with rl := 0 }, encOut := s.encOut ++ [Item.elem 0xFE, Item.elem s.enc.pat] }
      else { s with enc := { s.enc with rl := s.enc.rl + 1 } })

/-- Rule R104 (decision D20): over all match steps, `(254, pat)` is emitted exactly when the count reaches 254, that is
from `rl = 253`; the count is then 0, and pattern, valid bit and the empty queue stay. -/
def Obligations.EncRunIsSplitExactlyAt254 : Prop :=
  ∀ (b : Byte) (s t : State), s.enc.Inv → s.enc.matchesPat b = true → exec (.encSym b) s = .next t →
    (t.encOut = s.encOut ++ [Item.elem 0xFE, Item.elem s.enc.pat] ↔ s.enc.rl = 253) ∧
    (t.enc.rl = 0 ↔ s.enc.rl = 253) ∧ t.enc.pv = true ∧ t.enc.pat = s.enc.pat ∧ t.enc.qLen = 0

/-- Rules R106, R68 (derived): an `ENC.SYM` step completes in every reachable state and emits nothing or one whole token,
a RUN of 1..254 or a LIT of 2..255 symbols, so at most 257 elements and never an end mark. -/
def Obligations.EncSymEmitsAtMostOneToken : Prop :=
  ∀ (b : Byte) (s : State), s.enc.Inv →
    ∃ (t : State) (ks : List Instr), exec (.encSym b) s = .next t ∧
      t = { s with enc := t.enc, encOut := s.encOut ++ (ks.flatMap elementsOf).map Item.elem } ∧
      (ks = [] ∨ (∃ n sym, ks = [.run n sym] ∧ 1 ≤ n.toNat ∧ n.toNat ≤ 254) ∨
        (∃ c ss, ks = [.lit c ss] ∧ ss.length = c.toNat ∧ 2 ≤ c.toNat)) ∧
      (ks.flatMap elementsOf).length ≤ 257

/-! ### ENC: end and reset -/

/-- Rule R95 (decision D11): `RESET` of ENC clears the valid bit, the count and the queue, emits nothing, and leaves
`pat` and `q_mem` unspecified, free values. -/
def Obligations.EncResetDiscardsPending : Prop :=
  ∀ (s : State), ∃ (p : Byte) (m : Vector Byte queueCapacity), exec .encReset s = .next
    { s with enc := { pv := false, pat := p, rl := 0, qMem := m, qLen := 0 }, encDraws := s.encDraws + 1 }

/-- Rules R111, R114 (decisions D4, D10): `END` with no symbol consumed appends the end mark alone. -/
def Obligations.EncEndOfEmptyCall : Prop :=
  ∀ (s : State), s.enc.pv = false → ∃ (p : Byte) (m : Vector Byte queueCapacity), exec .encEnd s = .next
    { s with enc := { pv := false, pat := p, rl := 0, qMem := m, qLen := 0 },
             encOut := s.encOut ++ [Item.eos], encDraws := s.encDraws + 1 }

/-- Rules R112, R114 (decisions D6, D10): `END` with a non-empty queue emits it as a literal block, one symbol included,
then the end mark, and installs the reset values. -/
def Obligations.EncEndEmitsTerminalLiteral : Prop :=
  ∀ (s : State), s.enc.pv = true → s.enc.qLen ≠ 0 →
    ∃ (p : Byte) (m : Vector Byte queueCapacity), exec .encEnd s = .next
      { s with enc := { pv := false, pat := p, rl := 0, qMem := m, qLen := 0 },
               encOut := s.encOut ++ (0xFF :: s.enc.qLen :: s.enc.queue).map Item.elem ++ [Item.eos],
               encDraws := s.encDraws + 1 }

/-- Rules R113, R114 (decisions D5, D10): `END` with an empty queue emits the run, a zero-length one included, then the
end mark; with `EMIT_ZERO_RUN` false a zero-length run is left out and all else is the same. -/
def Obligations.EncEndEmitsTerminalRun : Prop :=
  ∀ (s : State), s.enc.pv = true → s.enc.qLen = 0 →
    (∃ (p : Byte) (m : Vector Byte queueCapacity), exec .encEnd s = .next
      { s with enc := { pv := false, pat := p, rl := 0, qMem := m, qLen := 0 },
               encOut := s.encOut ++ [Item.elem s.enc.rl, Item.elem s.enc.pat, Item.eos],
               encDraws := s.encDraws + 1 }) ∧
    (∃ (p : Byte) (m : Vector Byte queueCapacity), encFinish false s = .next
      { s with enc := { pv := false, pat := p, rl := 0, qMem := m, qLen := 0 },
               encOut := s.encOut ++
                 (if s.enc.rl = 0 then [Item.eos] else [Item.elem s.enc.rl, Item.elem s.enc.pat, Item.eos]),
               encDraws := s.encDraws + 1 })

/-! ### ENC: whole calls -/

/-- Rules R30, R29, R107, R118 (derived): after any symbols of a call, from any state with ENC in its reset state, ENC has
appended a well-formed stream that decodes to the consumed symbols less the pending ones, at most 255 of them; the
pattern is the last symbol, valid exactly if there was one. -/
def Obligations.EncOutputAndPendingCoverInput : Prop :=
  ∀ (bs : List Byte) (s : State), s.enc.Idle →
    ∃ (t : State) (out done : List Byte), execAll (encSyms bs) s = .next t ∧
      t = { s with enc := t.enc, encOut := s.encOut ++ out.map Item.elem } ∧
      decodeStream out = some done ∧ done ++ t.enc.pending = bs ∧
      t.enc.pending.length ≤ 255 ∧ (t.enc.pv = true ↔ bs ≠ []) ∧
      (∀ b, bs.getLast? = some b → t.enc.pat = b) ∧ (bs = [] → out = [])

/-- Rules R90, R114, R182 (decision D10): a `pack` call from any state with ENC in its reset state appends exactly
`pack bs` and the end mark, whatever happened before, and ends in the reset state; with `EMIT_ZERO_RUN` true it is the
call the hardware's own events make. -/
def Obligations.PackCallIndependentOfHistory : Prop :=
  ∀ (zeroRun : Bool) (bs : List Byte) (s : State), s.enc.Idle →
    (∃ t : State, encCall zeroRun bs s = .next t ∧ t.enc.Idle ∧
      t = { s with enc := t.enc, encOut := s.encOut ++ (pack zeroRun bs).map Item.elem ++ [Item.eos],
                   encDraws := s.encDraws + 1 }) ∧
    execAll (encSyms bs ++ [.encEnd]) s = encCall true bs s

/-- Rule R140: round trip, for every finite input, the empty one included, and both values of `EMIT_ZERO_RUN`: what a
`pack` call appends is well-formed, and an `unpack` call on it appends the input and the end mark and ends in `HEAD`
with `err = 0`. -/
def Obligations.UnpackInvertsPack : Prop :=
  ∀ (zeroRun : Bool) (bs : List Byte) (s : State), s.dec.phase = .head →
    wellFormedStream (pack zeroRun bs) = true ∧ decodeStream (pack zeroRun bs) = some bs ∧
    ∃ t : State, decCall (pack zeroRun bs) s = .next t ∧
      t.decOut = s.decOut ++ bs.map Item.elem ++ [Item.eos] ∧ t.dec.phase = .head ∧ t.dec.err = false

/-- Rule R141 (its general form is derived; `(0, x)` rests on decision D5): how a whole input of equal symbols is
split. -/
def Obligations.PackSplitsEqualSymbolsAt254 : Prop :=
  ∀ (x : Byte) (k r : Nat), r < 254 → 2 ≤ 254 * k + r →
    pack true (List.replicate (254 * k + r) x) =
      (List.replicate k [0xFE, x]).flatten ++ [BitVec.ofNat 8 r, x] ∧
    pack false (List.replicate (254 * k + r) x) =
      (List.replicate k [0xFE, x]).flatten ++ (if r = 0 then [] else [BitVec.ofNat 8 r, x])

/-- Rule R142 (its second part is derived; the blocks of 255 rest on decision D7): an input with no two neighbours equal is
emitted as literal blocks of 255 and a last one of 1..255, never as runs. -/
def Obligations.PackEmitsNonRepeatingInputAsLiterals : Prop :=
  ∀ (zeroRun : Bool) (bs : List Byte), bs ≠ [] → bs.IsChain (· ≠ ·) →
    ∃ (full : List (List Byte)) (last : List Byte), bs = full.flatten ++ last ∧
      (∀ q ∈ full, q.length = 255) ∧ 1 ≤ last.length ∧ last.length ≤ 255 ∧
      pack zeroRun bs =
        full.flatMap (fun q => 0xFF :: 0xFF :: q) ++ 0xFF :: BitVec.ofNat 8 last.length :: last

/-- Rule R143: two different symbols are one literal block. -/
def Obligations.PackOfTwoDifferentSymbols : Prop :=
  ∀ (zeroRun : Bool) (a b : Byte), a ≠ b → pack zeroRun [a, b] = [0xFF, 2, a, b]

/-- Rule R145: the source's worked example, for any two different symbols. -/
def Obligations.PackOfWorkedExample : Prop :=
  ∀ (zeroRun : Bool) (a f : Byte), a ≠ f →
    pack zeroRun [a, a, a, a, a, f, f, f, f, a, f] = [5, a, 4, f, 0xFF, 2, a, f]

/-- Rules R56, R144: no symbol value is special to ENC, 0xFF included: renaming the symbols of the input one to one
renames the symbols in the tokens and changes no length, count or marker. With it the examples of rule R144. -/
def Obligations.PackTreatsAllSymbolsAlike : Prop :=
  (∀ (zeroRun : Bool) (f : Byte → Byte) (bs : List Byte), Function.Injective f →
    ∃ ks : List Instr, tokens (pack zeroRun bs) = .ok ks ∧
      tokens (pack zeroRun (bs.map f)) = .ok (ks.map fun k => match k with
        | .run n s => .run n (f s)
        | .lit c ss => .lit c (ss.map f)
        | other => other)) ∧
  (∀ zeroRun : Bool,
    pack zeroRun [0xFF, 0xFF, 0xFF] = [3, 0xFF] ∧ decodeStream [3, 0xFF] = some [0xFF, 0xFF, 0xFF] ∧
    pack zeroRun [0xFF] = [0xFF, 1, 0xFF] ∧ decodeStream [0xFF, 1, 0xFF] = some [0xFF] ∧
    pack zeroRun [0xFF, 0, 0xFF] = [0xFF, 3, 0xFF, 0, 0xFF] ∧
    decodeStream [0xFF, 3, 0xFF, 0, 0xFF] = some [0xFF, 0, 0xFF])

/-- Rules R31, R146: `END` finds the state in which it emits the zero-length run exactly when the call's last symbol made
the 254 flush. -/
def Obligations.ZeroRunStateIsRightAfter254Flush : Prop :=
  ∀ (bs : List Byte) (s t : State), s.enc.Idle → execAll (encSyms bs) s = .next t →
    ((t.enc.pv = true ∧ t.enc.rl = 0 ∧ t.enc.qLen = 0) ↔
      ∃ (cs : List Byte) (b : Byte) (u : State), bs = cs ++ [b] ∧ execAll (encSyms cs) s = .next u ∧
        u.enc.matchesPat b = true ∧ u.enc.qLen = 0 ∧ u.enc.rl = 253 ∧
        t.encOut = u.encOut ++ [Item.elem 0xFE, Item.elem b])

/-- Rule R147 (derived): the ranges of the tokens of `pack bs`; only the last may be a RUN of 0, and then the one before
it is `(254, same symbol)`; only the last may be a LIT of 1; no LIT has equal neighbours. -/
def Obligations.PackTokenRanges : Prop :=
  ∀ (zeroRun : Bool) (bs : List Byte),
    ∃ ks : List Instr, tokens (pack zeroRun bs) = .ok ks ∧
      (∀ k ∈ ks, k.wf = true ∧ k.isToken = true) ∧
      (∀ (pre post : List Instr) (n sym : Byte), ks = pre ++ .run n sym :: post → n = 0 →
        post = [] ∧ pre.getLast? = some (.run 0xFE sym)) ∧
      (∀ (pre post : List Instr) (c : Byte) (ss : List Byte), ks = pre ++ .lit c ss :: post →
        c ≠ 0 ∧ (c = 1 → post = []) ∧ ss.IsChain (· ≠ ·))

/-- Rule R148 (derived): two neighbouring tokens of `pack bs` meet in equal symbols only where the second is a RUN and the
first is either a RUN of 254 or a LIT; and a LIT of at most 254 that is not the last is followed by a RUN of its last
symbol. -/
def Obligations.PackNeighbouringTokens : Prop :=
  ∀ (zeroRun : Bool) (bs : List Byte) (ks pre post : List Instr) (k k' : Instr),
    tokens (pack zeroRun bs) = .ok ks → ks = pre ++ k :: k' :: post →
    ((sem k).getLast? = (sem k').head? → (∃ n sym, k' = .run n sym) ∧
      ((∃ sym, k = .run 0xFE sym) ∨ (∃ c ss, k = .lit c ss))) ∧
    (∀ c ss, k = .lit c ss → c ≠ 255 → ∃ n sym, k' = .run n sym ∧ ss.getLast? = some sym)

/-- Rule R150 (derived): the size of ENC's output for a non-empty input, and of DEC's for a well-formed stream. -/
def Obligations.CodecSizeBounds : Prop :=
  (∀ (zeroRun : Bool) (bs : List Byte), bs ≠ [] →
    2 * ((bs.length + 253) / 254) ≤ (pack zeroRun bs).length ∧ (pack zeroRun bs).length ≤ 2 * bs.length + 1) ∧
  (∀ vs bs : List Byte, decodeStream vs = some bs → bs.length ≤ 127 * vs.length)

/-- Rule R152 (derived): decoding a concatenation of well-formed streams. -/
def Obligations.DecodeOfConcatenation : Prop :=
  ∀ vs ws bs cs : List Byte, decodeStream vs = some bs → decodeStream ws = some cs →
    decodeStream (vs ++ ws) = some (bs ++ cs)

/-- Rule R151 (derived): three streams decode to the one symbol 0x41, and `pack` makes only one of them. -/
def Obligations.UnpackIsNotInjective : Prop :=
  decodeStream [1, 0x41] = some [0x41] ∧ decodeStream [0xFF, 1, 0x41] = some [0x41] ∧
  decodeStream [0xFF, 0, 1, 0x41] = some [0x41] ∧ pack true [0x41] = [0xFF, 1, 0x41]

/-! ### The wire format -/

/-- Rules R72, R73, R75, R80: decoding a well-formed token's elements, whatever follows them, gives the token back and
leaves what follows. -/
def Obligations.DecodeInvertsEncode : Prop :=
  ∀ (i : Instr) (bs rest : List Byte), i.wf = true → encode i = some bs →
    decode (bs ++ rest) = .ok (i, rest)

/-- Rule R80 (derived): bytes decode in at most one way: what decoding gives is a well-formed token whose elements, with
the bytes left over, are the bytes that were decoded. -/
def Obligations.EncodeInvertsDecode : Prop :=
  ∀ (i : Instr) (vs rest : List Byte), decode vs = .ok (i, rest) →
    i.wf = true ∧ ∃ bs, encode i = some bs ∧ vs = bs ++ rest

/-- Rules R71, R76: the first element alone tells the kind of the token, complete over all 256 values: 0xFF is `LIT`, any
other is `RUN` with that length. -/
def Obligations.FirstElementTellsTokenKind : Prop :=
  ∀ (m : Byte) (vs rest : List Byte) (i : Instr), decode (m :: vs) = .ok (i, rest) →
    (m = 0xFF → ∃ c ss, i = .lit c ss) ∧ (m ≠ 0xFF → ∃ s, i = .run m s)

/-- Rule R81 (derived): a byte sequence fails to begin with a token only by ending too early, in one of three ways (or by
being empty). -/
def Obligations.DecodeRejectsOnlyTruncation : Prop :=
  ∀ (vs : List Byte) (e : DecodeError), decode vs = .error e ↔
    ((vs = [] ∧ e = .noElement) ∨
     (∃ n : Byte, vs = [n] ∧ n ≠ 0xFF ∧ e = .runSymbolMissing) ∨
     (vs = [0xFF] ∧ e = .litCountMissing) ∨
     (∃ (c : Byte) (ss : List Byte), vs = 0xFF :: c :: ss ∧ ss.length < c.toNat ∧ e = .litSymbolsMissing))

/-- Rule R80 (derived): a well-formed stream splits into tokens in exactly one way, the one `tokens` finds. -/
def Obligations.StreamSplitsInOneWay : Prop :=
  ∀ ks : List Instr, (∀ k ∈ ks, k.wf = true ∧ k.isToken = true) →
    tokens (ks.flatMap elementsOf) = .ok ks

/-- Rules R72, R73, R77: a few encodings written out by hand decode to their tokens. -/
def Obligations.HandWrittenWordsDecode : Prop :=
  decode [0x05, 0x41] = .ok (.run 5 0x41, []) ∧
  decode [0x03, 0xFF] = .ok (.run 3 0xFF, []) ∧
  decode [0x00, 0x99, 0xFF] = .ok (.run 0 0x99, [0xFF]) ∧
  decode [0xFF, 0x02, 0x41, 0x46] = .ok (.lit 2 [0x41, 0x46], []) ∧
  decode [0xFF, 0x01, 0xFF, 0x01] = .ok (.lit 1 [0xFF], [0x01]) ∧
  decode [0xFF, 0x00] = .ok (.lit 0 [], [])

/-! ### The machine -/

/-- The reset state meets the invariant. -/
def Obligations.ResetMeetsInvariant : Prop := State.reset.Inv

/-- Rules R26, R27, R28, R29, R31, R36, R38 (derived; log entry 17 for the connection): every step from a state that meets the invariant gives a state that
meets it, whatever the caller's turns and the streams hold. -/
def Obligations.StepKeepsInvariant : Prop :=
  ∀ s t : State, s.Inv → step s = .next t → t.Inv

/-- Rules R106, R117, R137 (derived): no event and no token is refused, blocked or stuck: in a state that meets the
invariant every instruction completes. -/
def Obligations.EveryInstructionCompletes : Prop :=
  ∀ (i : Instr) (s : State), s.Inv → ∃ t : State, exec i s = .next t ∧ t.Inv

/-- Rule R22 (log entry 8): the one stop of the model: `exec` faults exactly on an `ENC.SYM` that would emit a run while
there is no pattern, and refuses nothing. -/
def Obligations.OnlyPatternReadWhileNoneFaults : Prop :=
  ∀ (i : Instr) (s : State),
    (exec i s = .fault .patternReadWhileNone ↔
      (∃ b, i = .encSym b) ∧ s.enc.pv = false ∧ s.enc.rl ≠ 0) ∧
    ∀ r : Refusal, exec i s ≠ .refused r

/-- Rules R22, R24, R34, R36, R42 (and U12): no behaviour depends on a register the spec leaves unspecified: two states
that differ only there step to outcomes that differ only there, with the same output. -/
def Obligations.UnspecifiedRegistersAreNeverObserved : Prop :=
  ∀ s t : State, s.Same t → SameOutcome (step s) (step t)

/-- Rule R16: neither unit writes or reads the other's state: an ENC instruction changes ENC's registers, output and draw
counter alone and answers the same whatever DEC holds, and the other way round. -/
def Obligations.UnitsAreIsolated : Prop :=
  ∀ (i : Instr) (s s' t : State), exec i s = .next t →
    (i.isEnc = true →
      t = { s with enc := t.enc, encOut := t.encOut, encDraws := t.encDraws } ∧
      (s'.enc = s.enc → s'.encOut = s.encOut → s'.encDraws = s.encDraws →
        exec i s' = .next { s' with enc := t.enc, encOut := t.encOut, encDraws := t.encDraws })) ∧
    (i.isEnc = false →
      t = { s with dec := t.dec, decOut := t.decOut, decDraws := t.decDraws } ∧
      (s'.dec = s.dec → s'.decOut = s.decOut → s'.decDraws = s.decDraws →
        exec i s' = .next { s' with dec := t.dec, decOut := t.decOut, decDraws := t.decDraws }))

/-- Rules R25, R52, R53, R54, R64 (decisions D2, D17; log entry 17): a step never removes or rewrites an output item and
never puts an input item back; the one thing that ever joins an input stream is the next item of `ENC.out`, in `DEC.in`,
carried by a turn of the connection. -/
def Obligations.StreamsOnlyMoveForward : Prop :=
  ∀ s t : State, step s = .next t →
    s.encOut <+: t.encOut ∧ s.decOut <+: t.decOut ∧ t.encIn <:+ s.encIn ∧ t.turns = s.turns.tail ∧
    ((t.decIn <:+ s.decIn ∧ t.passed = s.passed) ∨
     (∃ x rest, s.turns = .passItem :: rest ∧ s.encOut[s.passed]? = some x ∧
       t = { s with turns := rest, decIn := s.decIn ++ [x], passed := s.passed + 1 }))

/-- Rules R12, R52, R54, R167, R177 (log entries 6, 7, 17): what a step runs: the event the turn delivers, or the token at
the front of `DEC.in`, after the turn and the items have been taken; with nothing to deliver the units hold their state; a
turn of the connection carries one item and runs nothing. -/
def Obligations.StepRunsTheDeliveredInstruction : Prop :=
  ∀ (s : State) (rest : List Turn),
    (s.turns = [] → step s = .next s) ∧
    (s.turns = .encItem :: rest →
      (s.encIn = [] → step s = .next { s with turns := rest }) ∧
      (∀ b r, s.encIn = .elem b :: r → step s = exec (.encSym b) { s with turns := rest, encIn := r }) ∧
      (∀ r, s.encIn = .eos :: r → step s = exec .encEnd { s with turns := rest, encIn := r })) ∧
    (s.turns = .decItem :: rest →
      (s.decIn = [] → step s = .next { s with turns := rest }) ∧
      (∀ v r, s.decIn = .elem v :: r → step s = exec (.decElem v) { s with turns := rest, decIn := r }) ∧
      (∀ r, s.decIn = .eos :: r → step s = exec .decEnd { s with turns := rest, decIn := r })) ∧
    (s.turns = .encReset false :: rest → step s = exec .encReset { s with turns := rest }) ∧
    (s.turns = .encReset true :: rest → step s = exec .encReset { s with turns := rest, encIn := s.encIn.tail }) ∧
    (s.turns = .decReset false :: rest → step s = exec .decReset { s with turns := rest }) ∧
    (s.turns = .decReset true :: rest → step s = exec .decReset { s with turns := rest, decIn := s.decIn.tail }) ∧
    (s.turns = .decToken :: rest →
      (∀ i after, decode (leadingElements s.decIn) = .ok (i, after) →
        step s = exec i { s with turns := rest, decIn := s.decIn.drop (elementsOf i).length }) ∧
      (∀ e, decode (leadingElements s.decIn) = .error e →
        step s = step { s with turns := .decItem :: rest })) ∧
    (s.turns = .passItem :: rest →
      (s.encOut.length ≤ s.passed → step s = .next { s with turns := rest }) ∧
      (∀ x, s.encOut[s.passed]? = some x →
        step s = .next { s with turns := rest, decIn := s.decIn ++ [x], passed := s.passed + 1 }))

/-- Log entry 6: `withFetchWord` makes the very next step run the word's instruction, and that step alone. -/
def Obligations.FetchWordRunsThatInstruction : Prop :=
  ∀ (s : State) (nbits w : Nat) (i : Instr), decodeTableWord nbits w = some i →
    step (s.withFetchWord nbits w) = exec i s

/-- Rule R134 (derived; log entry 7): executing a token in one step is the same as taking its elements one a step. -/
def Obligations.TokenStepRefinesElementSteps : Prop :=
  ∀ (s : State) (i : Instr) (after : List Byte) (rest : List Turn),
    s.turns = .decToken :: rest → decode (leadingElements s.decIn) = .ok (i, after) →
    step s = stepN (elementsOf i).length
      { s with turns := List.replicate (elementsOf i).length .decItem ++ rest }

/-- Rules R54, R64, R153 (derived; log entry 17): the two units chained, `ENC.out` connected to `DEC.in` item for item, for
every input and every interleaving of ENC's, DEC's and the connection's turns. At every moment `DEC.out` has gained a prefix
of the symbols ENC has consumed, short of them by ENC's pending sequence and by what the token DEC is inside and the items on
their way cover. Once ENC has taken the input and its end mark and DEC all that ENC emitted, `DEC.out` has gained the input
and the end mark, `err = 0`, and both units are in their reset states. And turns that lead there exist. -/
def Obligations.ChainedUnitsReproduceInput : Prop :=
  ∀ (bs : List Byte) (s : State), ChainStart bs s →
    (s.turns.all Turn.chains = true →
      ∀ k : Nat, ∃ (t : State) (taken : List Item) (p q ps qs : List Byte),
        stepN k s = .next t ∧ ChainedAt bs s t taken p q ps qs ∧
        (t.encIn = [] → t.decIn = [] → t.notPassed = [] →
          t.decOut = s.decOut ++ bs.map Item.elem ++ [Item.eos] ∧ t.dec.err = false ∧ t.enc.Idle ∧ t.dec.Idle)) ∧
    ∃ (m : Nat) (u : State),
      stepN (bs.length + 1 + m + m)
        { s with turns := List.replicate (bs.length + 1) .encItem ++ List.replicate m .passItem ++
                          List.replicate m .decItem } = .next u ∧
      u.encIn = [] ∧ u.decIn = [] ∧ u.notPassed = [] ∧ u.turns = []
end

