-- ==== Sys2Proof/Laws/Decode.lean ====
section
/-! SUPPORT. The decoder's small lemmas: the cases of one token, what decoding leaves, and that the fuel of `splitTokens` is
always enough. -/

namespace Sys2Proof

@[simp] theorem decode_nil : decode [] = .error .noElement := rfl

theorem decode_marker (c : Byte) (body : List Byte) : decode (Config.marker :: c :: body) =
    if countOf c ≤ body.length then .ok (.lit c (body.take (countOf c)), body.drop (countOf c))
    else .error .litSymbolsMissing := by
  simp [decode]

@[simp] theorem decode_marker_alone : decode [Config.marker] = .error .litCountMissing := by
  simp [decode]

theorem decode_run {n : Byte} (h : n ≠ Config.marker) (s : Byte) (rest : List Byte) :
    decode (n :: s :: rest) = .ok (.run n s, rest) := by
  simp [decode, h]

theorem decode_run_alone {n : Byte} (h : n ≠ Config.marker) : decode [n] = .error .runSymbolMissing := by
  simp [decode, h]

/-- Decoding takes at least two elements. -/
theorem decode_shrinks {vs rest : List Byte} {i : Instr} (h : decode vs = .ok (i, rest)) :
    rest.length + 2 ≤ vs.length := by
  match vs with
  | [] => simp at h
  | [m] => by_cases hm : m = Config.marker <;> simp [decode, hm] at h
  | m :: c :: body =>
    by_cases hm : m = Config.marker
    · subst hm
      rw [decode_marker] at h
      split at h
      · cases h; simp
      · cases h
    · rw [decode_run hm] at h
      cases h; simp

/-- What follows a complete token does not change how it decodes. -/
theorem decode_append {vs rest : List Byte} {i : Instr} (h : decode vs = .ok (i, rest)) (ws : List Byte) :
    decode (vs ++ ws) = .ok (i, rest ++ ws) := by
  match vs with
  | [] => simp at h
  | [m] => by_cases hm : m = Config.marker <;> simp [decode, hm] at h
  | m :: c :: body =>
    by_cases hm : m = Config.marker
    · subst hm
      rw [decode_marker] at h
      split at h
      · rename_i hc
        cases h
        rw [List.cons_append, List.cons_append, decode_marker, if_pos (by simp; omega),
          List.take_append_of_le_length hc, List.drop_append_of_le_length hc]
      · cases h
    · rw [decode_run hm] at h
      cases h
      exact decode_run hm c (rest ++ ws)

@[simp] theorem splitTokens_nil (fuel : Nat) : splitTokens fuel [] = .ok [] := by
  cases fuel <;> rfl

/-- As many tokens as there are elements is always fuel enough. -/
theorem splitTokens_fuel : ∀ (fuel : Nat) (vs : List Byte), vs.length ≤ fuel → splitTokens fuel vs = tokens vs := by
  intro fuel
  induction fuel using Nat.strongRecOn with
  | _ fuel ih =>
    intro vs hvs
    match vs, fuel with
    | [], _ => simp [tokens]
    | m :: rest, 0 => simp at hvs
    | m :: rest, fuel + 1 =>
      simp only [tokens, List.length_cons, splitTokens]
      cases hd : decode (m :: rest) with
      | error e => rfl
      | ok p =>
        obtain ⟨k, rest'⟩ := p
        have hl := decode_shrinks hd
        simp only [List.length_cons] at hl hvs
        simp only []
        rw [ih fuel (by omega) rest' (by omega), ih rest.length (by omega) rest' (by omega)]

@[simp] theorem tokens_nil : tokens [] = .ok [] := rfl

/-- The tokens of a stream: the one at the front, then those of the rest. -/
theorem tokens_of_decode {vs rest : List Byte} {k : Instr} (h : decode vs = .ok (k, rest)) :
    tokens vs = match tokens rest with
      | .ok ks => .ok (k :: ks)
      | .error e => .error e := by
  match vs with
  | [] => simp at h
  | m :: vs' =>
    have hl := decode_shrinks h
    simp only [List.length_cons] at hl
    rw [← splitTokens_fuel vs'.length rest (by omega)]
    simp only [tokens, List.length_cons, splitTokens, h]
    cases splitTokens vs'.length rest <;> rfl

/-- A stream whose front is no complete token has no tokens. -/
theorem tokens_of_decode_error {vs : List Byte} {e : DecodeError} (hv : vs ≠ []) (h : decode vs = .error e) :
    tokens vs = .error e := by
  match vs with
  | [] => exact absurd rfl hv
  | m :: vs' => simp only [tokens, List.length_cons, splitTokens, h]

/-- A well-formed RUN's length byte is no marker, and the other way round. -/
theorem run_wf_iff {n s : Byte} : (Instr.run n s).wf = true ↔ n ≠ Config.marker := by
  simp only [Instr.wf, Instr.illFormed]
  split <;> simp_all

/-- A LIT is well-formed exactly if it has as many symbols as its count says. -/
theorem lit_wf_iff {c : Byte} {syms : List Byte} : (Instr.lit c syms).wf = true ↔ syms.length = c.toNat := by
  simp only [Instr.wf, Instr.illFormed]
  split <;> simp_all

end Sys2Proof
end

