-- ==== Sys2Proof/Laws/State.lean ====
section
/-! SUPPORT. One lemma per field of `State` and per update of it, so that no later proof unfolds a record update. -/

namespace Sys2Proof.Machine

/-! ### `setEnc` -/

@[simp] theorem State.setEnc_enc (s : State) (e : EncState) : (s.setEnc e).enc = e := rfl
@[simp] theorem State.setEnc_dec (s : State) (e : EncState) : (s.setEnc e).dec = s.dec := rfl
@[simp] theorem State.setEnc_encIn (s : State) (e : EncState) : (s.setEnc e).encIn = s.encIn := rfl
@[simp] theorem State.setEnc_encOut (s : State) (e : EncState) : (s.setEnc e).encOut = s.encOut := rfl
@[simp] theorem State.setEnc_decIn (s : State) (e : EncState) : (s.setEnc e).decIn = s.decIn := rfl
@[simp] theorem State.setEnc_decOut (s : State) (e : EncState) : (s.setEnc e).decOut = s.decOut := rfl
@[simp] theorem State.setEnc_turns (s : State) (e : EncState) : (s.setEnc e).turns = s.turns := rfl
@[simp] theorem State.setEnc_passed (s : State) (e : EncState) : (s.setEnc e).passed = s.passed := rfl
@[simp] theorem State.setEnc_encDraws (s : State) (e : EncState) : (s.setEnc e).encDraws = s.encDraws := rfl
@[simp] theorem State.setEnc_decDraws (s : State) (e : EncState) : (s.setEnc e).decDraws = s.decDraws := rfl

/-! ### `setDec` -/

@[simp] theorem State.setDec_enc (s : State) (d : DecState) : (s.setDec d).enc = s.enc := rfl
@[simp] theorem State.setDec_dec (s : State) (d : DecState) : (s.setDec d).dec = d := rfl
@[simp] theorem State.setDec_encIn (s : State) (d : DecState) : (s.setDec d).encIn = s.encIn := rfl
@[simp] theorem State.setDec_encOut (s : State) (d : DecState) : (s.setDec d).encOut = s.encOut := rfl
@[simp] theorem State.setDec_decIn (s : State) (d : DecState) : (s.setDec d).decIn = s.decIn := rfl
@[simp] theorem State.setDec_decOut (s : State) (d : DecState) : (s.setDec d).decOut = s.decOut := rfl
@[simp] theorem State.setDec_turns (s : State) (d : DecState) : (s.setDec d).turns = s.turns := rfl
@[simp] theorem State.setDec_passed (s : State) (d : DecState) : (s.setDec d).passed = s.passed := rfl
@[simp] theorem State.setDec_encDraws (s : State) (d : DecState) : (s.setDec d).encDraws = s.encDraws := rfl
@[simp] theorem State.setDec_decDraws (s : State) (d : DecState) : (s.setDec d).decDraws = s.decDraws := rfl

/-! ### `putEnc` -/

@[simp] theorem State.putEnc_enc (s : State) (xs : List Item) : (s.putEnc xs).enc = s.enc := rfl
@[simp] theorem State.putEnc_dec (s : State) (xs : List Item) : (s.putEnc xs).dec = s.dec := rfl
@[simp] theorem State.putEnc_encIn (s : State) (xs : List Item) : (s.putEnc xs).encIn = s.encIn := rfl
@[simp] theorem State.putEnc_encOut (s : State) (xs : List Item) : (s.putEnc xs).encOut = s.encOut ++ xs := rfl
@[simp] theorem State.putEnc_decIn (s : State) (xs : List Item) : (s.putEnc xs).decIn = s.decIn := rfl
@[simp] theorem State.putEnc_decOut (s : State) (xs : List Item) : (s.putEnc xs).decOut = s.decOut := rfl
@[simp] theorem State.putEnc_turns (s : State) (xs : List Item) : (s.putEnc xs).turns = s.turns := rfl
@[simp] theorem State.putEnc_passed (s : State) (xs : List Item) : (s.putEnc xs).passed = s.passed := rfl
@[simp] theorem State.putEnc_encDraws (s : State) (xs : List Item) : (s.putEnc xs).encDraws = s.encDraws := rfl
@[simp] theorem State.putEnc_decDraws (s : State) (xs : List Item) : (s.putEnc xs).decDraws = s.decDraws := rfl

/-! ### `putDec` -/

@[simp] theorem State.putDec_enc (s : State) (xs : List Item) : (s.putDec xs).enc = s.enc := rfl
@[simp] theorem State.putDec_dec (s : State) (xs : List Item) : (s.putDec xs).dec = s.dec := rfl
@[simp] theorem State.putDec_encIn (s : State) (xs : List Item) : (s.putDec xs).encIn = s.encIn := rfl
@[simp] theorem State.putDec_encOut (s : State) (xs : List Item) : (s.putDec xs).encOut = s.encOut := rfl
@[simp] theorem State.putDec_decIn (s : State) (xs : List Item) : (s.putDec xs).decIn = s.decIn := rfl
@[simp] theorem State.putDec_decOut (s : State) (xs : List Item) : (s.putDec xs).decOut = s.decOut ++ xs := rfl
@[simp] theorem State.putDec_turns (s : State) (xs : List Item) : (s.putDec xs).turns = s.turns := rfl
@[simp] theorem State.putDec_passed (s : State) (xs : List Item) : (s.putDec xs).passed = s.passed := rfl
@[simp] theorem State.putDec_encDraws (s : State) (xs : List Item) : (s.putDec xs).encDraws = s.encDraws := rfl
@[simp] theorem State.putDec_decDraws (s : State) (xs : List Item) : (s.putDec xs).decDraws = s.decDraws := rfl

/-! ### `passItem` -/

@[simp] theorem passItem_enc (s : State) : (passItem s).enc = s.enc := by
  unfold passItem; split <;> rfl
@[simp] theorem passItem_dec (s : State) : (passItem s).dec = s.dec := by
  unfold passItem; split <;> rfl
@[simp] theorem passItem_encIn (s : State) : (passItem s).encIn = s.encIn := by
  unfold passItem; split <;> rfl
@[simp] theorem passItem_encOut (s : State) : (passItem s).encOut = s.encOut := by
  unfold passItem; split <;> rfl
@[simp] theorem passItem_decOut (s : State) : (passItem s).decOut = s.decOut := by
  unfold passItem; split <;> rfl
@[simp] theorem passItem_turns (s : State) : (passItem s).turns = s.turns := by
  unfold passItem; split <;> rfl
@[simp] theorem passItem_encDraws (s : State) : (passItem s).encDraws = s.encDraws := by
  unfold passItem; split <;> rfl
@[simp] theorem passItem_decDraws (s : State) : (passItem s).decDraws = s.decDraws := by
  unfold passItem; split <;> rfl

/-! ### `emitRun` -/

@[simp] theorem emitRun_enc (n sym : Byte) (s : State) : (emitRun n sym s).enc = s.enc := rfl
@[simp] theorem emitRun_dec (n sym : Byte) (s : State) : (emitRun n sym s).dec = s.dec := rfl
@[simp] theorem emitRun_encIn (n sym : Byte) (s : State) : (emitRun n sym s).encIn = s.encIn := rfl
@[simp] theorem emitRun_encOut (n sym : Byte) (s : State) : (emitRun n sym s).encOut = s.encOut ++ items (runElements n sym) := rfl
@[simp] theorem emitRun_decIn (n sym : Byte) (s : State) : (emitRun n sym s).decIn = s.decIn := rfl
@[simp] theorem emitRun_decOut (n sym : Byte) (s : State) : (emitRun n sym s).decOut = s.decOut := rfl
@[simp] theorem emitRun_turns (n sym : Byte) (s : State) : (emitRun n sym s).turns = s.turns := rfl
@[simp] theorem emitRun_passed (n sym : Byte) (s : State) : (emitRun n sym s).passed = s.passed := rfl
@[simp] theorem emitRun_encDraws (n sym : Byte) (s : State) : (emitRun n sym s).encDraws = s.encDraws := rfl
@[simp] theorem emitRun_decDraws (n sym : Byte) (s : State) : (emitRun n sym s).decDraws = s.decDraws := rfl

/-! ### `emitLit` -/

@[simp] theorem emitLit_enc (s : State) : (emitLit s).enc = s.enc := rfl
@[simp] theorem emitLit_dec (s : State) : (emitLit s).dec = s.dec := rfl
@[simp] theorem emitLit_encIn (s : State) : (emitLit s).encIn = s.encIn := rfl
@[simp] theorem emitLit_encOut (s : State) : (emitLit s).encOut = s.encOut ++ items (litElements s.enc.qLen s.enc.queue) := rfl
@[simp] theorem emitLit_decIn (s : State) : (emitLit s).decIn = s.decIn := rfl
@[simp] theorem emitLit_decOut (s : State) : (emitLit s).decOut = s.decOut := rfl
@[simp] theorem emitLit_turns (s : State) : (emitLit s).turns = s.turns := rfl
@[simp] theorem emitLit_passed (s : State) : (emitLit s).passed = s.passed := rfl
@[simp] theorem emitLit_encDraws (s : State) : (emitLit s).encDraws = s.encDraws := rfl
@[simp] theorem emitLit_decDraws (s : State) : (emitLit s).decDraws = s.decDraws := rfl

/-! ### `clearQueue` -/

@[simp] theorem clearQueue_enc (s : State) : (clearQueue s).enc = { s.enc with qLen := 0 } := rfl
@[simp] theorem clearQueue_dec (s : State) : (clearQueue s).dec = s.dec := rfl
@[simp] theorem clearQueue_encIn (s : State) : (clearQueue s).encIn = s.encIn := rfl
@[simp] theorem clearQueue_encOut (s : State) : (clearQueue s).encOut = s.encOut := rfl
@[simp] theorem clearQueue_decIn (s : State) : (clearQueue s).decIn = s.decIn := rfl
@[simp] theorem clearQueue_decOut (s : State) : (clearQueue s).decOut = s.decOut := rfl
@[simp] theorem clearQueue_turns (s : State) : (clearQueue s).turns = s.turns := rfl
@[simp] theorem clearQueue_passed (s : State) : (clearQueue s).passed = s.passed := rfl
@[simp] theorem clearQueue_encDraws (s : State) : (clearQueue s).encDraws = s.encDraws := rfl
@[simp] theorem clearQueue_decDraws (s : State) : (clearQueue s).decDraws = s.decDraws := rfl

/-! ### `flushLit` -/

@[simp] theorem flushLit_enc (s : State) : (flushLit s).enc = { s.enc with qLen := 0 } := rfl
@[simp] theorem flushLit_dec (s : State) : (flushLit s).dec = s.dec := rfl
@[simp] theorem flushLit_encIn (s : State) : (flushLit s).encIn = s.encIn := rfl
@[simp] theorem flushLit_encOut (s : State) : (flushLit s).encOut = s.encOut ++ items (litElements s.enc.qLen s.enc.queue) := rfl
@[simp] theorem flushLit_decIn (s : State) : (flushLit s).decIn = s.decIn := rfl
@[simp] theorem flushLit_decOut (s : State) : (flushLit s).decOut = s.decOut := rfl
@[simp] theorem flushLit_turns (s : State) : (flushLit s).turns = s.turns := rfl
@[simp] theorem flushLit_passed (s : State) : (flushLit s).passed = s.passed := rfl
@[simp] theorem flushLit_encDraws (s : State) : (flushLit s).encDraws = s.encDraws := rfl
@[simp] theorem flushLit_decDraws (s : State) : (flushLit s).decDraws = s.decDraws := rfl

/-! ### `enqueue` -/

@[simp] theorem enqueue_enc (b : Byte) (s : State) : (enqueue b s).enc = { s.enc with
      qMem := queueWrite s.enc.qMem (countOf s.enc.qLen) b, qLen := s.enc.qLen + 1 } := rfl
@[simp] theorem enqueue_dec (b : Byte) (s : State) : (enqueue b s).dec = s.dec := rfl
@[simp] theorem enqueue_encIn (b : Byte) (s : State) : (enqueue b s).encIn = s.encIn := rfl
@[simp] theorem enqueue_encOut (b : Byte) (s : State) : (enqueue b s).encOut = s.encOut := rfl
@[simp] theorem enqueue_decIn (b : Byte) (s : State) : (enqueue b s).decIn = s.decIn := rfl
@[simp] theorem enqueue_decOut (b : Byte) (s : State) : (enqueue b s).decOut = s.decOut := rfl
@[simp] theorem enqueue_turns (b : Byte) (s : State) : (enqueue b s).turns = s.turns := rfl
@[simp] theorem enqueue_passed (b : Byte) (s : State) : (enqueue b s).passed = s.passed := rfl
@[simp] theorem enqueue_encDraws (b : Byte) (s : State) : (enqueue b s).encDraws = s.encDraws := rfl
@[simp] theorem enqueue_decDraws (b : Byte) (s : State) : (enqueue b s).decDraws = s.decDraws := rfl

/-! ### `latchPattern` -/

@[simp] theorem latchPattern_enc (b : Byte) (s : State) : (latchPattern b s).enc = { s.enc with pat := b, pv := true } := rfl
@[simp] theorem latchPattern_dec (b : Byte) (s : State) : (latchPattern b s).dec = s.dec := rfl
@[simp] theorem latchPattern_encIn (b : Byte) (s : State) : (latchPattern b s).encIn = s.encIn := rfl
@[simp] theorem latchPattern_encOut (b : Byte) (s : State) : (latchPattern b s).encOut = s.encOut := rfl
@[simp] theorem latchPattern_decIn (b : Byte) (s : State) : (latchPattern b s).decIn = s.decIn := rfl
@[simp] theorem latchPattern_decOut (b : Byte) (s : State) : (latchPattern b s).decOut = s.decOut := rfl
@[simp] theorem latchPattern_turns (b : Byte) (s : State) : (latchPattern b s).turns = s.turns := rfl
@[simp] theorem latchPattern_passed (b : Byte) (s : State) : (latchPattern b s).passed = s.passed := rfl
@[simp] theorem latchPattern_encDraws (b : Byte) (s : State) : (latchPattern b s).encDraws = s.encDraws := rfl
@[simp] theorem latchPattern_decDraws (b : Byte) (s : State) : (latchPattern b s).decDraws = s.decDraws := rfl

/-! ### `addRun` -/

@[simp] theorem addRun_enc (n : Byte) (s : State) : (addRun n s).enc = { s.enc with rl := s.enc.rl + n } := rfl
@[simp] theorem addRun_dec (n : Byte) (s : State) : (addRun n s).dec = s.dec := rfl
@[simp] theorem addRun_encIn (n : Byte) (s : State) : (addRun n s).encIn = s.encIn := rfl
@[simp] theorem addRun_encOut (n : Byte) (s : State) : (addRun n s).encOut = s.encOut := rfl
@[simp] theorem addRun_decIn (n : Byte) (s : State) : (addRun n s).decIn = s.decIn := rfl
@[simp] theorem addRun_decOut (n : Byte) (s : State) : (addRun n s).decOut = s.decOut := rfl
@[simp] theorem addRun_turns (n : Byte) (s : State) : (addRun n s).turns = s.turns := rfl
@[simp] theorem addRun_passed (n : Byte) (s : State) : (addRun n s).passed = s.passed := rfl
@[simp] theorem addRun_encDraws (n : Byte) (s : State) : (addRun n s).encDraws = s.encDraws := rfl
@[simp] theorem addRun_decDraws (n : Byte) (s : State) : (addRun n s).decDraws = s.decDraws := rfl

/-! ### `encReinit` -/

@[simp] theorem encReinit_dec (s : State) : (encReinit s).dec = s.dec := rfl
@[simp] theorem encReinit_encIn (s : State) : (encReinit s).encIn = s.encIn := rfl
@[simp] theorem encReinit_encOut (s : State) : (encReinit s).encOut = s.encOut := rfl
@[simp] theorem encReinit_decIn (s : State) : (encReinit s).decIn = s.decIn := rfl
@[simp] theorem encReinit_decOut (s : State) : (encReinit s).decOut = s.decOut := rfl
@[simp] theorem encReinit_turns (s : State) : (encReinit s).turns = s.turns := rfl
@[simp] theorem encReinit_passed (s : State) : (encReinit s).passed = s.passed := rfl
@[simp] theorem encReinit_encDraws (s : State) : (encReinit s).encDraws = s.encDraws + 1 := rfl
@[simp] theorem encReinit_decDraws (s : State) : (encReinit s).decDraws = s.decDraws := rfl

@[simp] theorem encReinit_enc_pv (s : State) : (encReinit s).enc.pv = false := rfl
@[simp] theorem encReinit_enc_rl (s : State) : (encReinit s).enc.rl = 0 := rfl
@[simp] theorem encReinit_enc_qLen (s : State) : (encReinit s).enc.qLen = 0 := rfl
@[simp] theorem encReinit_enc_pat (s : State) : (encReinit s).enc.pat = Config.freePat s.encDraws := rfl

/-! ### `decReinit` -/

@[simp] theorem decReinit_enc (s : State) : (decReinit s).enc = s.enc := rfl
@[simp] theorem decReinit_encIn (s : State) : (decReinit s).encIn = s.encIn := rfl
@[simp] theorem decReinit_encOut (s : State) : (decReinit s).encOut = s.encOut := rfl
@[simp] theorem decReinit_decIn (s : State) : (decReinit s).decIn = s.decIn := rfl
@[simp] theorem decReinit_decOut (s : State) : (decReinit s).decOut = s.decOut := rfl
@[simp] theorem decReinit_turns (s : State) : (decReinit s).turns = s.turns := rfl
@[simp] theorem decReinit_passed (s : State) : (decReinit s).passed = s.passed := rfl
@[simp] theorem decReinit_encDraws (s : State) : (decReinit s).encDraws = s.encDraws := rfl
@[simp] theorem decReinit_decDraws (s : State) : (decReinit s).decDraws = s.decDraws + 1 := rfl

@[simp] theorem decReinit_dec_phase (s : State) : (decReinit s).dec.phase = .head := rfl
@[simp] theorem decReinit_dec_cnt (s : State) : (decReinit s).dec.cnt = 0 := rfl
@[simp] theorem decReinit_dec_fphase (s : State) : (decReinit s).dec.fphase = Config.freeFphase s.decDraws := rfl

/-! ### `raiseMalformedStream` -/

@[simp] theorem raiseMalformedStream_enc (s : State) : (raiseMalformedStream s).enc = s.enc := rfl
@[simp] theorem raiseMalformedStream_dec (s : State) : (raiseMalformedStream s).dec = { s.dec with fphase := s.dec.phase.code, phase := .fault } := rfl
@[simp] theorem raiseMalformedStream_encIn (s : State) : (raiseMalformedStream s).encIn = s.encIn := rfl
@[simp] theorem raiseMalformedStream_encOut (s : State) : (raiseMalformedStream s).encOut = s.encOut := rfl
@[simp] theorem raiseMalformedStream_decIn (s : State) : (raiseMalformedStream s).decIn = s.decIn := rfl
@[simp] theorem raiseMalformedStream_decOut (s : State) : (raiseMalformedStream s).decOut = s.decOut := rfl
@[simp] theorem raiseMalformedStream_turns (s : State) : (raiseMalformedStream s).turns = s.turns := rfl
@[simp] theorem raiseMalformedStream_passed (s : State) : (raiseMalformedStream s).passed = s.passed := rfl
@[simp] theorem raiseMalformedStream_encDraws (s : State) : (raiseMalformedStream s).encDraws = s.encDraws := rfl
@[simp] theorem raiseMalformedStream_decDraws (s : State) : (raiseMalformedStream s).decDraws = s.decDraws := rfl

end Sys2Proof.Machine
end

