-- ==== Sys2Proof/Laws/Ops.lean ====
section
/-! SUPPORT. What each shared operation can do, said once: sequencing, the stream forms, the connection of the
units, the queue, the pattern's read, the flushes, the parts of an `ENC.SYM` step, and runs of instructions and steps. -/

namespace Sys2Proof.Machine

/-! ### Sequencing -/

@[simp] theorem andThen_next (s : State) (k : State → Result) : andThen (.next s) k = k s := rfl

@[simp] theorem andThen_fault (f : Fault) (k : State → Result) : andThen (.fault f) k = .fault f := rfl

@[simp] theorem andThen_refused (f : Refusal) (k : State → Result) : andThen (.refused f) k = .refused f := rfl

/-- A sequence goes on exactly if both parts do. -/
theorem andThen_eq_next {r : Result} {k : State → Result} {t : State} :
    andThen r k = .next t ↔ ∃ s, r = .next s ∧ k s = .next t := by
  cases r <;> simp

theorem andThen_assoc (r : Result) (k l : State → Result) :
    andThen (andThen r k) l = andThen r fun s => andThen (k s) l := by
  cases r <;> rfl

/-! ### Streams -/

@[simp] theorem items_nil : items [] = [] := rfl

@[simp] theorem items_cons (v : Byte) (vs : List Byte) : items (v :: vs) = .elem v :: items vs := rfl

@[simp] theorem items_append (vs ws : List Byte) : items (vs ++ ws) = items vs ++ items ws := by
  simp [items]

@[simp] theorem items_length (vs : List Byte) : (items vs).length = vs.length := by simp [items]

@[simp] theorem elements_nil : elements [] = [] := rfl

@[simp] theorem elements_eos (xs : List Item) : elements (.eos :: xs) = elements xs := rfl

@[simp] theorem elements_elem (v : Byte) (xs : List Item) : elements (.elem v :: xs) = v :: elements xs := rfl

@[simp] theorem elements_append (xs ys : List Item) : elements (xs ++ ys) = elements xs ++ elements ys := by
  simp [elements, List.filterMap_append]

/-- Elements written as items read back as they were. -/
@[simp] theorem elements_items (vs : List Byte) : elements (items vs) = vs := by
  induction vs with
  | nil => rfl
  | cons v vs ih => simp [ih]

/-- The elements at the front of a stream that begins with elements. -/
@[simp] theorem leadingElements_items_append (vs : List Byte) (xs : List Item) :
    leadingElements (items vs ++ xs) = vs ++ leadingElements xs := by
  induction vs with
  | nil => rfl
  | cons v vs ih => simp [leadingElements, ih]

/-- Every stream is its leading elements, then nothing or an end mark and more. -/
theorem leadingElements_split (xs : List Item) :
    ∃ ys, xs = items (leadingElements xs) ++ ys ∧ (ys = [] ∨ ∃ zs, ys = .eos :: zs) := by
  induction xs with
  | nil => exact ⟨[], rfl, .inl rfl⟩
  | cons x xs ih =>
    cases x with
    | elem v =>
      obtain ⟨ys, h, hy⟩ := ih
      exact ⟨ys, by rw [leadingElements, items_cons, List.cons_append, ← h], hy⟩
    | eos => exact ⟨.eos :: xs, rfl, .inr ⟨xs, rfl⟩⟩

/-! ### The connection of the units -/

/-- All the connection can do: nothing, if it has carried every item of `ENC.out`; otherwise the next item goes to the tail
of `DEC.in`. -/
theorem passItem_cases (s : State) :
    (s.encOut.length ≤ s.passed ∧ passItem s = s) ∨
    ∃ x, s.encOut[s.passed]? = some x ∧ passItem s = { s with decIn := s.decIn ++ [x], passed := s.passed + 1 } := by
  unfold passItem
  split
  · rename_i h; exact .inl ⟨List.getElem?_eq_none_iff.mp h, rfl⟩
  · rename_i x h; exact .inr ⟨x, h, rfl⟩

/-- What is on its way to DEC is the same before and after an item is carried. -/
theorem passItem_onItsWay (s : State) :
    (passItem s).decIn ++ (passItem s).notPassed = s.decIn ++ s.notPassed := by
  obtain ⟨-, h⟩ | ⟨x, hx, h⟩ := passItem_cases s
  · rw [h]
  · obtain ⟨hl, rfl⟩ := List.getElem?_eq_some_iff.mp hx
    rw [h]
    simp only [State.notPassed, List.append_assoc, List.singleton_append]
    rw [← List.drop_eq_getElem_cons hl]

/-- The connection stays within what ENC has appended. -/
theorem passItem_passed_le {s : State} (h : s.passed ≤ s.encOut.length) : (passItem s).passed ≤ s.encOut.length := by
  obtain ⟨-, h'⟩ | ⟨x, hx, h'⟩ := passItem_cases s
  · rw [h']; exact h
  · rw [h']; exact (List.getElem?_eq_some_iff.mp hx).1

/-- A step whose turn is the connection's. -/
theorem step_passItem {s : State} {rest : List Turn} (h : s.turns = .passItem :: rest) :
    step s = .next (passItem { s with turns := rest }) := by
  simp [step, h, fetch]

/-! ### The queue -/

/-- The queue has as many symbols as the fill count says: the buffer holds all 255 a fill count can name. -/
@[simp] theorem EncState.queue_length (e : EncState) : e.queue.length = e.qLen.toNat := by
  have : e.qLen.toNat < 256 := e.qLen.isLt
  simp only [queue, countOf, List.length_take, Vector.length_toList, queueCapacity]
  omega

theorem EncState.queue_eq_nil {e : EncState} (h : e.qLen = 0) : e.queue = [] := by
  simp [queue, countOf, h]

theorem EncState.queue_ne_nil {e : EncState} (h : e.qLen ≠ 0) : e.queue ≠ [] := by
  intro hq
  apply h
  have hl := e.queue_length
  rw [hq] at hl
  exact BitVec.eq_of_toNat_eq hl.symm

/-- The queue depends on the buffer and the fill count alone. -/
theorem EncState.queue_congr {e f : EncState} (hm : e.qMem = f.qMem) (hl : e.qLen = f.qLen) :
    e.queue = f.queue := by
  simp [queue, hm, hl]

/-- A write to the buffer changes no other entry. -/
theorem queueWrite_get_of_ne (m : Vector Byte queueCapacity) (i : Nat) (b : Byte) (j : Fin queueCapacity)
    (h : j.val ≠ i) : (queueWrite m i b).get j = m.get j := by
  simp only [queueWrite, Vector.get_eq_getElem]
  rw [Vector.getElem_setIfInBounds_ne]
  exact fun e => h e.symm

/-- A write to the buffer is read back. -/
theorem queueWrite_get_self (m : Vector Byte queueCapacity) (b : Byte) (j : Fin queueCapacity) :
    (queueWrite m j.val b).get j = b := by
  simp [queueWrite, Vector.get_eq_getElem]

/-- Appending at the fill count puts the symbol at the queue's tail (rule R24). -/
theorem EncState.queue_append {e f : EncState} {b : Byte} (h : e.qLen ≠ 255)
    (hm : f.qMem = queueWrite e.qMem (countOf e.qLen) b) (hl : f.qLen = e.qLen + 1) :
    f.queue = e.queue ++ [b] := by
  have hlt : e.qLen.toNat < 255 := by
    have h1 : e.qLen.toNat < 256 := e.qLen.isLt
    have h2 : e.qLen.toNat ≠ 255 := fun h3 => h (BitVec.eq_of_toNat_eq h3)
    omega
  have hn : f.qLen.toNat = e.qLen.toNat + 1 := by
    rw [hl, BitVec.toNat_add]
    simp
    omega
  have hlen : e.qMem.toList.length = 255 := by simp [queueCapacity]
  have hset : f.qMem.toList = e.qMem.toList.set e.qLen.toNat b := by
    rw [hm]
    simp only [queueWrite, countOf, Vector.toList, Vector.toArray_setIfInBounds, Array.toList_setIfInBounds]
  simp only [queue, countOf, hn, hset]
  rw [List.take_succ_eq_append_getElem (by simp [hlen]; omega)]
  simp [List.take_set_of_le]

/-! ### The pattern and the flushes -/

theorem readPat_of_pv {s : State} (h : s.enc.pv = true) (k : Byte → Result) : readPat s k = k s.enc.pat := by
  simp [readPat, h]

theorem readPat_of_none {s : State} (h : s.enc.pv = false) (k : Byte → Result) :
    readPat s k = .fault .patternReadWhileNone := by
  simp [readPat, h]

theorem emitPendingRun_of_pv {s : State} (h : s.enc.pv = true) :
    emitPendingRun s = .next (emitRun s.enc.rl s.enc.pat s) := by
  simp [emitPendingRun, readPat_of_pv h]

theorem flushRun_of_pv {s : State} (h : s.enc.pv = true) :
    flushRun s = .next { s with enc := { s.enc with rl := 0 },
                                encOut := s.encOut ++ [.elem s.enc.rl, .elem s.enc.pat] } := by
  simp [flushRun, emitPendingRun_of_pv h, emitRun, runElements, State.setEnc, State.putEnc]

theorem flushRun_of_none {s : State} (h : s.enc.pv = false) :
    flushRun s = .fault .patternReadWhileNone := by
  simp [flushRun, emitPendingRun, readPat_of_none h]

/-- A literal flush as one record update. -/
theorem flushLit_eq (s : State) : flushLit s =
    { s with enc := { s.enc with qLen := 0 },
             encOut := s.encOut ++ items (litElements s.enc.qLen s.enc.queue) } := rfl

/-! ### The parts of an `ENC.SYM` step -/

/-- What a match step does with the queue, by the three cases of P97. -/
theorem absorbQueue_cases (s : State) :
    (2 ≤ countOf s.enc.qLen ∧ absorbQueue s = flushLit s) ∨
    (s.enc.qLen = 1 ∧ absorbQueue s = { s with enc := { s.enc with qLen := 0, rl := s.enc.rl + 1 } }) ∨
    (s.enc.qLen = 0 ∧ absorbQueue s = s) := by
  unfold absorbQueue
  split
  · rename_i h; exact .inl ⟨h, rfl⟩
  · rename_i h
    split
    · rename_i h1; exact .inr (.inl ⟨h1, rfl⟩)
    · rename_i h1
      refine .inr (.inr ⟨?_, rfl⟩)
      have h2 : s.enc.qLen.toNat ≠ 1 := fun h3 => h1 (BitVec.eq_of_toNat_eq h3)
      simp only [countOf] at h
      have h4 : s.enc.qLen.toNat = 0 := by omega
      exact BitVec.eq_of_toNat_eq h4

theorem matchesPat_iff {e : EncState} {b : Byte} : e.matchesPat b = true ↔ e.pv = true ∧ b = e.pat := by
  simp [EncState.matchesPat]

theorem matchesPat_eq_false_iff {e : EncState} {b : Byte} :
    e.matchesPat b = false ↔ e.pv = false ∨ b ≠ e.pat := by
  simp [EncState.matchesPat]
  cases e.pv <;> simp

/-! ### Runs -/

@[simp] theorem execAll_nil (s : State) : execAll [] s = .next s := rfl

@[simp] theorem execAll_cons (i : Instr) (is : List Instr) (s : State) :
    execAll (i :: is) s = andThen (exec i s) (execAll is) := rfl

/-- A run of a concatenation is one run after the other. -/
theorem execAll_append (is js : List Instr) (s : State) :
    execAll (is ++ js) s = andThen (execAll is s) (execAll js) := by
  induction is generalizing s with
  | nil => rfl
  | cons i is ih =>
    simp only [List.cons_append, execAll_cons, andThen_assoc]
    congr 1
    funext t
    exact ih t

@[simp] theorem stepN_zero (s : State) : stepN 0 s = .next s := rfl

theorem stepN_succ (k : Nat) (s : State) : stepN (k + 1) s = andThen (step s) (stepN k) := rfl

/-- A run of `j + k` steps is a run of `j`, then one of `k`. -/
theorem stepN_add (j k : Nat) (s : State) : stepN (j + k) s = andThen (stepN j s) (stepN k) := by
  induction j generalizing s with
  | zero => simp
  | succ j ih =>
    rw [Nat.succ_add, stepN_succ, stepN_succ, andThen_assoc]
    congr 1
    funext t
    exact ih t

@[simp] theorem takeElements_nil (s : State) : takeElements [] s = s := rfl

@[simp] theorem takeElements_cons (v : Byte) (vs : List Byte) (s : State) :
    takeElements (v :: vs) s = takeElements vs (takeElement v s) := rfl

theorem takeElements_append (vs ws : List Byte) (s : State) :
    takeElements (vs ++ ws) s = takeElements ws (takeElements vs s) := by
  simp [takeElements, List.foldl_append]

/-- The `ELEM` events of a list of elements are DEC taking them in order. -/
theorem execAll_decElems (vs : List Byte) (s : State) :
    execAll (decElems vs) s = .next (takeElements vs s) := by
  induction vs generalizing s with
  | nil => rfl
  | cons v vs ih => exact ih (takeElement v s)

/-- One element touches DEC's registers and output alone. -/
theorem takeElement_frame (v : Byte) (s : State) :
    takeElement v s = { s with dec := (takeElement v s).dec, decOut := (takeElement v s).decOut } := by
  unfold takeElement
  split <;> (try split) <;> rfl

/-- In `FAULT` an element is ignored. -/
theorem takeElement_fault {v : Byte} {s : State} (h : s.dec.phase = .fault) : takeElement v s = s := by
  simp [takeElement, h]

/-- One element puts DEC into `FAULT` only if it was there. -/
theorem takeElement_phase_fault {v : Byte} {s : State} (h : (takeElement v s).dec.phase = .fault) :
    s.dec.phase = .fault := by
  unfold takeElement at h
  split at h <;> (try split at h) <;> simp_all

end Sys2Proof.Machine
end

