-- ==== Sys2Proof/Laws/PerInstr.lean ====
section
/-! SUPPORT. The family `TokenLength`, per constructor: the elements of a well-formed instruction are as many as
spec/opcode_table.json says (`length_elements`: 2 for RUN, 2 + c for LIT; none for an event, rules R75, R83). -/

namespace Sys2Proof.Laws.TokenLength

/-- `length_elements` of the table's row. -/
def lengthElements : Instr → Nat
  | .lit c _ => 2 + countOf c
  | .run _ _ => 2
  | .encReset => 0
  | .encSym _ => 0
  | .encEnd => 0
  | .decReset => 0
  | .decElem _ => 0
  | .decEnd => 0

/-- A well-formed instruction has exactly the elements its row says. -/
def Statement (i : Instr) : Prop := i.wf = true → (elementsOf i).length = lengthElements i

theorem lit (c : Byte) (syms : List Byte) : Statement (.lit c syms) := by
  intro h
  have := lit_wf_iff.mp h
  simp [elementsOf, encode, lengthElements, countOf, this]
  omega

theorem run (n sym : Byte) : Statement (.run n sym) := fun _ => rfl

theorem encReset : Statement .encReset := fun _ => rfl

theorem encSym (b : Byte) : Statement (.encSym b) := fun _ => rfl

theorem encEnd : Statement .encEnd := fun _ => rfl

theorem decReset : Statement .decReset := fun _ => rfl

theorem decElem (v : Byte) : Statement (.decElem v) := fun _ => rfl

theorem decEnd : Statement .decEnd := fun _ => rfl

end Sys2Proof.Laws.TokenLength
end

