-- ==== Sys2Proof/Tests/Slice0.lean ====
section
/-! SUPPORT. The model's own tests. Expected results are from spec/95_test_vectors.md (the vector's id stands in the name or
the comment) or worked out by hand from the rule named. Then one witness for every statement with hypotheses. -/

namespace Sys2Proof.Tests

open Sys2Proof Sys2Proof.Machine

/-! ### WellFormed smoke: an ill-formed term for each check -/

theorem test_run_of_255_is_ill_formed : (Instr.run 0xFF 0x41).illFormed = some .runLengthIsMarker := by decide

theorem test_lit_with_a_missing_symbol_is_ill_formed :
    (Instr.lit 3 [0x41, 0x46]).illFormed = some .litCountMismatch := by decide

theorem test_lit_with_a_symbol_too_many_is_ill_formed :
    (Instr.lit 0 [0x41]).illFormed = some .litCountMismatch := by decide

theorem test_zero_run_is_well_formed : (Instr.run 0 0xFF).wf = true := by decide

theorem test_empty_lit_is_well_formed : (Instr.lit 0 []).wf = true := by decide

theorem test_events_are_well_formed :
    [Instr.encReset, .encSym 0xFF, .encEnd, .decReset, .decElem 0xFF, .decEnd].all Instr.wf = true := by decide

/-! ### Decoding: words written out from rules R72, R73 -/

/-- `05 41` is `RUN 5, 41` (rule R84's listing line). -/
theorem test_decode_run : decode [0x05, 0x41] = .ok (.run 5 0x41, []) := by decide

/-- `FE FE` is `RUN 254, FE`, the largest length (V-D11). -/
theorem test_decode_longest_run : decode [0xFE, 0xFE, 0x00] = .ok (.run 254 0xFE, [0x00]) := by decide

/-- `FF 02 41 46` is `LIT 2, 41 46` (program P1). -/
theorem test_decode_lit : decode [0xFF, 0x02, 0x41, 0x46] = .ok (.lit 2 [0x41, 0x46], []) := by decide

/-- `FF 01 FF 01 FF`: the 0xFF inside the block is data (rule R77, program P4). -/
theorem test_decode_lit_of_marker_symbol :
    decode [0xFF, 0x01, 0xFF, 0x01, 0xFF] = .ok (.lit 1 [0xFF], [0x01, 0xFF]) := by decide

/-- The listing of program P4, split into its five tokens. -/
theorem test_tokens_of_P4 :
    tokens [0x00, 0x99, 0xFF, 0x00, 0x02, 0xFF, 0xFF, 0x01, 0xFF, 0x01, 0xFF] =
      .ok [.run 0 0x99, .lit 0 [], .run 2 0xFF, .lit 1 [0xFF], .run 1 0xFF] := by decide

theorem test_decode_rejects_each_truncation :
    decode [] = .error .noElement ∧ decode [0x05] = .error .runSymbolMissing ∧
    decode [0xFF] = .error .litCountMissing ∧ decode [0xFF, 0x03, 0x41] = .error .litSymbolsMissing := by decide

/-- The opcode table's two rows with a bit pattern: match 0xFF and match 0x00 (RUN in its whole range but 0xFF). -/
theorem test_table_words :
    decodeTableWord 8 0xFF = some (.lit 0 []) ∧ decodeTableWord 8 0x00 = some (.run 0 0) ∧
    decodeTableWord 8 0xFE = some (.run 0xFE 0) ∧ decodeTableWord 16 0x4105 = some (.run 5 0x41) ∧
    decodeTableWord 16 0x02FF = some (.lit 2 [0, 0]) := by decide +kernel

/-- No bytes decode to an event, and an event has no elements (rule R83). -/
theorem test_events_have_no_encoding :
    [Instr.encReset, .encSym 1, .encEnd, .decReset, .decElem 1, .decEnd].all (fun i => (encode i).isNone) = true := by
  decide

/-! ### Small states -/

/-- A buffer that begins with the given symbols. -/
def buffer (q : List Byte) : Vector Byte queueCapacity := Vector.ofFn fun i => q.getD i.val 0

/-- An ENC state in the notation `pv pat rl q` of 95_test_vectors.md. -/
def encState (pv : Bool) (pat rl : Byte) (q : List Byte) : State :=
  { State.reset with enc := { pv := pv, pat := pat, rl := rl, qMem := buffer q, qLen := BitVec.ofNat 8 q.length } }

/-- A DEC state in the notation `phase cnt` of 95_test_vectors.md. -/
def decState (phase : Phase) (cnt : Byte) (fphase : PhaseCode := 0) : State :=
  { State.reset with dec := { phase := phase, cnt := cnt, fphase := fphase } }

/-- `pv`, `pat`, `rl`, the queue and the output of the next state. -/
def encView (r : Result) : Option (Bool × Byte × Byte × List Byte × List Item) :=
  match r with
  | .next t => some (t.enc.pv, t.enc.pat, t.enc.rl, t.enc.queue, t.encOut)
  | .fault _ => none
  | .refused _ => none

/-- `pv`, `rl`, the queue and the output of the next state: what is fixed after a re-initialisation. -/
def encIdleView (r : Result) : Option (Bool × Byte × List Byte × List Item) :=
  (encView r).map fun v => (v.1, v.2.2.1, v.2.2.2.1, v.2.2.2.2)

/-- `phase`, `cnt`, `err` and the output of the next state. -/
def decView (r : Result) : Option (Phase × Byte × Bool × List Item) :=
  match r with
  | .next t => some (t.dec.phase, t.dec.cnt, t.dec.err, t.decOut)
  | .fault _ => none
  | .refused _ => none

/-- `DEC.fphase` of the next state. -/
def fphaseOf (r : Result) : Option PhaseCode :=
  match r with
  | .next t => some t.dec.fphase
  | .fault _ => none
  | .refused _ => none

/-! ### One step of each instruction -/

theorem test_encReset_VS13 : encIdleView (exec .encReset (encState true 0x41 3 [])) = some (false, 0, [], []) := by
  decide +kernel

theorem test_encSym_VS5 : encView (exec (.encSym 0x42) (encState true 0x42 0 [0x41, 0x42])) =
    some (true, 0x42, 1, [], items [0xFF, 0x02, 0x41, 0x42]) := by decide +kernel

theorem test_encSym_VS7 : encView (exec (.encSym 0x46) (encState true 0x41 5 [])) =
    some (true, 0x46, 0, [0x46], items [0x05, 0x41]) := by decide +kernel

theorem test_encEnd_VS15 : encIdleView (exec .encEnd (encState true 0x41 0 [0x41])) =
    some (false, 0, [], items [0xFF, 0x01, 0x41] ++ [.eos]) := by decide +kernel

theorem test_encEnd_VS17 : encIdleView (exec .encEnd (encState true 0x05 0 [])) =
    some (false, 0, [], items [0x00, 0x05] ++ [.eos]) := by decide +kernel

theorem test_decReset_VT12 : decView (exec .decReset (decState .body 3)) = some (.head, 0, false, []) := by
  decide +kernel

theorem test_decElem_VT5 : decView (exec (.decElem 0x41) (decState .sym 5)) =
    some (.head, 5, false, items [0x41, 0x41, 0x41, 0x41, 0x41]) := by decide +kernel

theorem test_decElem_VT9 : decView (exec (.decElem 0xFF) (decState .count 7)) = some (.body, 255, false, []) := by
  decide +kernel

theorem test_decEnd_VT13 : decView (exec .decEnd (decState .head 5)) = some (.head, 0, false, [.eos]) := by
  decide +kernel

/-- The end of program P5: `BODY 2`, `END`. -/
theorem test_decEnd_P5 : decView (exec .decEnd (decState .body 2)) = some (.fault, 2, true, []) ∧
    fphaseOf (exec .decEnd (decState .body 2)) = some 3 := by decide +kernel

/-- `03 FF` as one token (V-D4). -/
theorem test_run_VD4 : decView (exec (.run 3 0xFF) .reset) = some (.head, 3, false, items [0xFF, 0xFF, 0xFF]) := by
  decide +kernel

/-- `FF 02 41 46` as one token (program P1). -/
theorem test_lit_P1 : decView (exec (.lit 2 [0x41, 0x46]) .reset) =
    some (.head, 0, false, items [0x41, 0x46]) := by decide +kernel

/-- The fetch word of the table's RUN row with length 5 and symbol 0x41 runs `RUN 5, 41` as the first step. -/
theorem test_step_runs_fetch_word : decView (step (State.reset.withFetchWord 16 0x4105)) =
    some (.head, 5, false, items [0x41, 0x41, 0x41, 0x41, 0x41]) := by decide +kernel

/-- A `RESET` that coincides with an item drops it (rule R167). -/
theorem test_step_reset_drops_item :
    (match step { encState true 0x41 3 [] with encIn := [.elem 0x41, .eos], turns := [.encReset true] } with
      | .next t => some (t.enc.rl, t.encIn, t.encOut, t.turns)
      | .fault _ => none
      | .refused _ => none) = some (0, [.eos], [], []) := by decide +kernel

/-- Where no complete token stands at the front of `DEC.in`, one item is taken (log entry 7). -/
theorem test_step_token_turn_on_truncated_stream :
    decView (step { State.reset with decIn := [.elem 0x05, .eos], turns := [.decToken] }) =
      some (.sym, 5, false, []) := by decide +kernel

/-- The connection carries the end mark like any item (rule R54), and `ENC.out` keeps it (rule R53). -/
theorem test_step_connection_carries_end_mark :
    (match step { State.reset with encOut := [.elem 0x05, .eos], passed := 1, decIn := [.elem 0x05], turns := [.passItem] } with
      | .next t => some (t.encOut, t.decIn, t.passed)
      | .fault _ => none
      | .refused _ => none) = some ([.elem 0x05, .eos], [.elem 0x05, .eos], 2) := by decide +kernel

/-! ### Witnesses: states that meet the invariant -/

theorem inv_dec_reset : State.reset.dec.Inv := by constructor <;> decide

theorem inv_reset_dec (e : EncState) (h : e.Inv) : ({ State.reset with enc := e } : State).Inv :=
  ⟨h, inv_dec_reset, Nat.le_refl _⟩

/-- `IDLE`. -/
theorem inv_idle : (encState false 0 0 []).enc.Inv := by constructor <;> decide +kernel

/-- A run of 1, the shortest a mismatch ends. -/
theorem inv_run_1 : (encState true 0x41 1 []).enc.Inv := by constructor <;> decide +kernel

/-- A run of 252. -/
theorem inv_run_252 : (encState true 0x41 252 []).enc.Inv := by constructor <;> decide +kernel

/-- A run of 253, the longest between steps. -/
theorem inv_run_253 : (encState true 0x41 253 []).enc.Inv := by constructor <;> decide +kernel

/-- Right after a 254 flush. -/
theorem inv_run_0 : (encState true 0x41 0 []).enc.Inv := by constructor <;> decide +kernel

/-- One symbol queued. -/
theorem inv_queue_1 : (encState true 0x41 0 [0x41]).enc.Inv := by constructor <;> decide +kernel

/-- Two symbols queued. -/
theorem inv_queue_2 : (encState true 0x42 0 [0x41, 0x42]).enc.Inv := by constructor <;> decide +kernel

/-- `n` symbols, none equal to its neighbour: `i mod 2` (vectors V-E24 to V-E28). -/
def alternating (n : Nat) : List Byte := (List.range n).map fun i => BitVec.ofNat 8 (i % 2)

/-- 254 symbols queued, one less than the queue holds. -/
theorem inv_queue_254 : (encState true 1 0 (alternating 254)).enc.Inv := by constructor <;> decide +kernel

/-- A full queue. -/
theorem inv_queue_255 : (encState true 0 0 (alternating 255)).enc.Inv := by constructor <;> decide +kernel

/-- DEC with the last symbol of a block to come. -/
theorem inv_body_1 : (decState .body 1).dec.Inv := by constructor <;> decide

/-- DEC with 255 symbols of a block to come. -/
theorem inv_body_255 : (decState .body 255).dec.Inv := by constructor <;> decide

/-! ### Witnesses: DEC -/

theorem witness_DecElemInHeadLatchesRunLength :
    (decState .head 0).dec.phase = .head ∧ (0x00 : Byte) ≠ 0xFF ∧ (0xFE : Byte) ≠ 0xFF := by decide

theorem witness_DecElemInHeadTakesMarker : (decState .head 7).dec.phase = .head := rfl

theorem witness_DecElemInSymExpandsRun :
    (decState .sym 0).dec.phase = .sym ∧ (decState .sym 254).dec.phase = .sym := ⟨rfl, rfl⟩

theorem witness_DecElemInCountLatchesLiteralCount : (decState .count 7).dec.phase = .count := rfl

theorem witness_DecElemInBodyCopiesSymbol :
    (decState .body 1).dec.phase = .body ∧ (decState .body 1).dec.Inv ∧
    (decState .body 255).dec.phase = .body ∧ (decState .body 255).dec.Inv := ⟨rfl, inv_body_1, rfl, inv_body_255⟩

theorem witness_DecEndInHeadCompletesCall : State.reset.dec.phase = .head := rfl

theorem witness_DecEndInsideTokenTakesMalformedStream :
    ((decState .sym 254).dec.phase = .sym ∧ Phase.sym ≠ .head ∧ Phase.sym ≠ .fault) ∧
    ((decState .count 0).dec.phase = .count ∧ Phase.count ≠ .head ∧ Phase.count ≠ .fault) ∧
    ((decState .body 255).dec.phase = .body ∧ Phase.body ≠ .head ∧ Phase.body ≠ .fault) := by decide

theorem witness_FaultedDecIgnoresAllButReset : (decState .fault 2 3).dec.phase = .fault := rfl

theorem witness_OnlyDecEndInsideTokenRaises :
    (∃ t, exec .decEnd (decState .body 2) = .next t) ∧ (decState .body 2).dec.err = false ∧
    (∃ t, exec .decEnd (decState .head 0) = .next t) ∧ (decState .head 0).dec.err = false ∧
    (∃ t, exec (.lit 3 [0x41]) (decState .head 0) = .next t) := ⟨⟨_, rfl⟩, rfl, ⟨_, rfl⟩, rfl, ⟨_, rfl⟩⟩

theorem witness_FaultFreezesDecUntilReset :
    (decState .fault 2 3).dec.phase = .fault ∧
    (∃ t, step { decState .fault 2 3 with decIn := [.elem 0x41], turns := [.decItem] } = .next t) ∧
    (∃ t, step { decState .fault 2 3 with turns := [.decReset false] } = .next t) := ⟨rfl, ⟨_, rfl⟩, ⟨_, rfl⟩⟩

theorem witness_RunTokenBigStep :
    (Instr.run 0 0x99).wf = true ∧ (Instr.run 254 0xFF).wf = true ∧ State.reset.dec.phase = .head := by decide

theorem witness_LitTokenBigStep :
    (Instr.lit 0 []).wf = true ∧ (Instr.lit 255 (alternating 255)).wf = true ∧ State.reset.dec.phase = .head := by
  decide +kernel

theorem witness_UnpackCallDecodesEveryWellFormedStream :
    State.reset.dec.phase = .head ∧ decodeStream [] = some [] ∧
    decodeStream [0x02, 0x41, 0xFF, 0x01, 0x46] = some [0x41, 0x41, 0x46] := by decide

theorem witness_DecPhaseTellsTruncation :
    State.reset.dec.phase = .head ∧ wellFormedStream [] = true ∧ tokens [0x02, 0x41, 0x00] = .error .runSymbolMissing ∧
    tokens [0xFF] = .error .litCountMissing ∧ tokens [0xFF, 0x03, 0x41] = .error .litSymbolsMissing := by decide

/-- Vectors V-F4, V-F5, V-F3: each way a stream is cut off. -/
theorem witness_UnpackCallOnTruncatedStreamFaults :
    State.reset.dec.phase = .head ∧ decodeStream [0x02, 0x41] = some [0x41, 0x41] ∧
    decode [0x00] = .error .runSymbolMissing ∧ decode [0xFF] = .error .litCountMissing ∧
    decode [0xFF, 0x03, 0x41] = .error .litSymbolsMissing ∧ decode [0xFF, 0x01] = .error .litSymbolsMissing := by decide

/-! ### Witnesses: ENC -/

theorem witness_EncFirstSymbolIsQueued :
    (encState false 0 0 []).enc.Inv ∧ (encState false 0 0 []).enc.pv = false := ⟨inv_idle, rfl⟩

theorem witness_EncMismatchFlushesRun :
    ((encState true 0x41 1 []).enc.Inv ∧ (encState true 0x41 1 []).enc.pv = true ∧
      (0x46 : Byte) ≠ (encState true 0x41 1 []).enc.pat ∧ (encState true 0x41 1 []).enc.rl ≠ 0) ∧
    ((encState true 0x41 253 []).enc.Inv ∧ (encState true 0x41 253 []).enc.rl ≠ 0) ∧
    ((encState true 0x41 0 []).enc.Inv ∧ (encState true 0x41 0 []).enc.rl = 0 ∧
      (encState true 0x41 0 []).enc.qLen ≠ 255) ∧
    ((encState true 1 0 (alternating 254)).enc.Inv ∧ (0 : Byte) ≠ (encState true 1 0 (alternating 254)).enc.pat ∧
      (encState true 1 0 (alternating 254)).enc.rl = 0 ∧ (encState true 1 0 (alternating 254)).enc.qLen ≠ 255) :=
  ⟨⟨inv_run_1, rfl, by decide, by decide⟩, ⟨inv_run_253, by decide⟩, ⟨inv_run_0, rfl, by decide⟩,
    inv_queue_254, by decide, rfl, by decide +kernel⟩

theorem witness_EncMismatchFlushesFullQueue :
    (encState true 0 0 (alternating 255)).enc.Inv ∧ (1 : Byte) ≠ (encState true 0 0 (alternating 255)).enc.pat ∧
    (encState true 0 0 (alternating 255)).enc.qLen = 255 := ⟨inv_queue_255, by decide, by decide +kernel⟩

theorem witness_EncMismatchAppendsAtQueueTail :
    ((encState true 1 0 (alternating 254)).enc.Inv ∧ (encState true 1 0 (alternating 254)).enc.matchesPat 0 = false) ∧
    ((encState true 0 0 (alternating 255)).enc.Inv ∧ (encState true 0 0 (alternating 255)).enc.matchesPat 1 = false) :=
  ⟨⟨inv_queue_254, rfl⟩, inv_queue_255, rfl⟩

theorem witness_EncMatchFlushesLiteral :
    ((encState true 0x42 0 [0x41, 0x42]).enc.Inv ∧ (encState true 0x42 0 [0x41, 0x42]).enc.matchesPat 0x42 = true ∧
      2 ≤ (encState true 0x42 0 [0x41, 0x42]).enc.qLen.toNat) ∧
    ((encState true 0 0 (alternating 255)).enc.Inv ∧ (encState true 0 0 (alternating 255)).enc.matchesPat 0 = true ∧
      2 ≤ (encState true 0 0 (alternating 255)).enc.qLen.toNat) :=
  ⟨⟨inv_queue_2, rfl, by decide +kernel⟩, inv_queue_255, rfl, by decide +kernel⟩

theorem witness_EncMatchReclassifiesSingleSymbol :
    (encState true 0x41 0 [0x41]).enc.Inv ∧ (encState true 0x41 0 [0x41]).enc.matchesPat 0x41 = true ∧
    (encState true 0x41 0 [0x41]).enc.qLen = 1 := ⟨inv_queue_1, rfl, rfl⟩

theorem witness_EncMatchContinuesRun :
    ((encState true 0x41 0 []).enc.Inv ∧ (encState true 0x41 0 []).enc.matchesPat 0x41 = true ∧
      (encState true 0x41 0 []).enc.qLen = 0) ∧
    ((encState true 0x41 252 []).enc.Inv ∧ (encState true 0x41 252 []).enc.qLen = 0) ∧
    ((encState true 0x41 253 []).enc.Inv ∧ (encState true 0x41 253 []).enc.matchesPat 0x41 = true ∧
      (encState true 0x41 253 []).enc.qLen = 0) :=
  ⟨⟨inv_run_0, rfl, rfl⟩, ⟨inv_run_252, rfl⟩, inv_run_253, rfl, rfl⟩

theorem witness_EncRunIsSplitExactlyAt254 :
    ((encState true 0x41 253 []).enc.Inv ∧ (encState true 0x41 253 []).enc.matchesPat 0x41 = true ∧
      ∃ t, exec (.encSym 0x41) (encState true 0x41 253 []) = .next t) ∧
    ((encState true 0x41 252 []).enc.Inv ∧ (encState true 0x41 252 []).enc.matchesPat 0x41 = true ∧
      ∃ t, exec (.encSym 0x41) (encState true 0x41 252 []) = .next t) :=
  ⟨⟨inv_run_253, rfl, _, rfl⟩, inv_run_252, rfl, _, rfl⟩

theorem witness_EncSymEmitsAtMostOneToken :
    (encState false 0 0 []).enc.Inv ∧ (encState true 0x41 253 []).enc.Inv ∧
    (encState true 0 0 (alternating 255)).enc.Inv := ⟨inv_idle, inv_run_253, inv_queue_255⟩

theorem witness_EncEndOfEmptyCall : State.reset.enc.pv = false := rfl

theorem witness_EncEndEmitsTerminalLiteral :
    ((encState true 0x41 0 [0x41]).enc.pv = true ∧ (encState true 0x41 0 [0x41]).enc.qLen ≠ 0) ∧
    ((encState true 0 0 (alternating 255)).enc.pv = true ∧ (encState true 0 0 (alternating 255)).enc.qLen ≠ 0) := by
  decide +kernel

theorem witness_EncEndEmitsTerminalRun :
    ((encState true 0x05 0 []).enc.pv = true ∧ (encState true 0x05 0 []).enc.qLen = 0) ∧
    ((encState true 0x05 253 []).enc.pv = true ∧ (encState true 0x05 253 []).enc.qLen = 0) := by decide +kernel

theorem idle_reset_enc : State.reset.enc.Idle := ⟨rfl, rfl, rfl⟩

theorem idle_reset_dec : State.reset.dec.Idle := ⟨rfl, rfl⟩

theorem witness_EncOutputAndPendingCoverInput : State.reset.enc.Idle := idle_reset_enc

theorem witness_PackCallIndependentOfHistory : State.reset.enc.Idle := idle_reset_enc

theorem witness_UnpackInvertsPack : State.reset.dec.phase = .head := rfl

/-- The smallest run, a run that is a multiple of 254, and one more. -/
theorem witness_PackSplitsEqualSymbolsAt254 :
    (2 < 254 ∧ 2 ≤ 254 * 0 + 2) ∧ (0 < 254 ∧ 2 ≤ 254 * 1 + 0) ∧ (253 < 254 ∧ 2 ≤ 254 * 1 + 253) := by decide

theorem witness_PackEmitsNonRepeatingInputAsLiterals :
    ([0x41] : List Byte) ≠ [] ∧ ([0x41] : List Byte).IsChain (· ≠ ·) ∧
    alternating 256 ≠ [] ∧ (alternating 256).IsChain (· ≠ ·) := by decide +kernel

theorem witness_PackOfTwoDifferentSymbols : (0x41 : Byte) ≠ 0x42 := by decide

theorem witness_PackOfWorkedExample : (0x41 : Byte) ≠ 0x46 := by decide

theorem witness_PackTreatsAllSymbolsAlike : Function.Injective fun b : Byte => b + 1 := by
  intro a b h
  simpa using h

/-- The call of two symbols and the empty call; the call of 254 equal symbols is `witness_ZeroRunStateAfter254`. -/
theorem witness_ZeroRunStateIsRightAfter254Flush :
    State.reset.enc.Idle ∧ (∃ t, execAll (encSyms [0x41, 0x41]) .reset = .next t) ∧
    (∃ t, execAll (encSyms []) .reset = .next t) := ⟨idle_reset_enc, ⟨_, rfl⟩, ⟨_, rfl⟩⟩

/-- The last symbol of a 254 flush leaves exactly the state with `pv = 1`, `rl = 0` and an empty queue (V-S8). -/
theorem witness_ZeroRunStateAfter254 :
    encView (exec (.encSym 0x05) (encState true 0x05 253 [])) = some (true, 0x05, 0, [], items [0xFE, 0x05]) := by
  decide +kernel

/-- Vector V-E10: a run, a block, and the run of the block's last symbol. -/
theorem witness_PackNeighbouringTokens :
    tokens (pack true [0x58, 0x58, 0x41, 0x59, 0x59]) = .ok [.run 2 0x58, .lit 2 [0x41, 0x59], .run 1 0x59] ∧
    [Instr.run 2 0x58, .lit 2 [0x41, 0x59], .run 1 0x59] =
      [.run 2 0x58] ++ .lit 2 [0x41, 0x59] :: .run 1 0x59 :: [] := by decide +kernel

theorem witness_CodecSizeBounds :
    ([0x41] : List Byte) ≠ [] ∧ decodeStream [0xFE, 0x05] = some (List.replicate 254 0x05) := by decide +kernel

theorem witness_DecodeOfConcatenation :
    decodeStream [0x02, 0x41] = some [0x41, 0x41] ∧ decodeStream [0xFF, 0x01, 0x41] = some [0x41] := by decide

/-! ### Witnesses: the wire format -/

theorem witness_DecodeInvertsEncode :
    (Instr.run 254 0xFF).wf = true ∧ encode (.run 254 0xFF) = some [0xFE, 0xFF] ∧
    (Instr.lit 0 []).wf = true ∧ encode (.lit 0 []) = some [0xFF, 0x00] := by decide

theorem witness_EncodeInvertsDecode : decode [0xFF, 0x01, 0xFF, 0x02] = .ok (.lit 1 [0xFF], [0x02]) := by decide

theorem witness_FirstElementTellsTokenKind :
    decode (0xFF :: [0x00]) = .ok (.lit 0 [], []) ∧ decode (0xFE :: [0x41]) = .ok (.run 0xFE 0x41, []) ∧
    decode (0x00 :: [0x41]) = .ok (.run 0 0x41, []) := by decide

theorem witness_StreamSplitsInOneWay :
    ∀ k ∈ [Instr.run 0 0x99, .lit 0 [], .run 254 0xFF], k.wf = true ∧ k.isToken = true := by decide

/-! ### Witnesses: the machine -/

theorem inv_reset : State.reset.Inv := ⟨by constructor <;> decide +kernel, inv_dec_reset, Nat.le_refl _⟩

theorem witness_StepKeepsInvariant :
    ({ State.reset with encIn := [.elem 0x41], turns := [.encItem] } : State).Inv ∧
    ∃ t, step { State.reset with encIn := [.elem 0x41], turns := [.encItem] } = .next t :=
  ⟨⟨inv_reset.enc, inv_reset.dec, inv_reset.passed_le⟩, _, rfl⟩

theorem witness_EveryInstructionCompletes :
    State.reset.Inv ∧ ({ State.reset with enc := (encState true 0 0 (alternating 255)).enc } : State).Inv :=
  ⟨inv_reset, inv_reset_dec _ inv_queue_255⟩

/-- The one stop: a run pending without a pattern, which no run from reset reaches. -/
theorem witness_OnlyPatternReadWhileNoneFaults :
    (encState false 0 1 []).enc.pv = false ∧ (encState false 0 1 []).enc.rl ≠ 0 ∧
    encView (exec (.encSym 0) (encState false 0 1 [])) = none := by decide +kernel

/-- Two states that differ in every unspecified register: `pat`, `q_mem`, `cnt` in `HEAD`, `fphase`, the draws. -/
theorem witness_UnspecifiedRegistersAreNeverObserved :
    State.reset.Same
      { State.reset with enc := (encState false 0x41 0 []).enc, dec := { phase := .head, cnt := 7, fphase := 5 },
                         encDraws := 3, decDraws := 4 } := by
  refine ⟨⟨rfl, ?_, rfl, rfl, by decide +kernel⟩, ⟨rfl, ?_, ?_⟩, rfl, rfl, rfl, rfl, rfl, rfl⟩
  · intro h; cases h
  · intro h; rcases h with h | h <;> cases h
  · intro h; cases h

theorem witness_UnitsAreIsolated :
    (∃ t, exec (.encSym 0x41) State.reset = .next t) ∧ Instr.isEnc (.encSym 0x41) = true ∧
    (∃ t, exec (.decElem 0x41) State.reset = .next t) ∧ Instr.isEnc (.decElem 0x41) = false ∧
    (decState .fault 2 3).enc = State.reset.enc ∧ (decState .fault 2 3).encOut = State.reset.encOut ∧
    (encState true 0x41 5 []).dec = State.reset.dec ∧ (encState true 0x41 5 []).decOut = State.reset.decOut :=
  ⟨⟨_, rfl⟩, rfl, ⟨_, rfl⟩, rfl, rfl, rfl, rfl, rfl⟩

theorem witness_StreamsOnlyMoveForward :
    (∃ t, step { decState .sym 5 with decIn := [.elem 0x41, .eos], turns := [.decItem, .decItem] } = .next t) ∧
    (∃ t, step { State.reset with encOut := [.eos], turns := [.passItem] } = .next t) := ⟨⟨_, rfl⟩, _, rfl⟩

/-- A state for each clause of the statement whose premise is more than the form of `turns`. -/
theorem witness_StepRunsTheDeliveredInstruction :
    State.reset.turns = [] ∧ State.reset.encIn = [] ∧ State.reset.decIn = [] ∧
    decode (leadingElements [.elem 0xFF, .elem 0x00, .eos]) = .ok (.lit 0 [], []) ∧
    decode (leadingElements [.elem 0x05, .eos]) = .error .runSymbolMissing ∧
    decode (leadingElements [.eos, .elem 0x05]) = .error .noElement ∧
    State.reset.encOut.length ≤ State.reset.passed ∧ ([.elem 0x02, .eos] : List Item)[1]? = some .eos := by decide

theorem witness_FetchWordRunsThatInstruction :
    decodeTableWord 8 0xFF = some (.lit 0 []) ∧ decodeTableWord 8 0x00 = some (.run 0 0) := by decide +kernel

theorem witness_TokenStepRefinesElementSteps :
    ({ State.reset with decIn := items [0xFF, 0x01, 0x41], turns := [.decToken, .decItem] } : State).turns =
      .decToken :: [.decItem] ∧
    decode (leadingElements (items [0xFF, 0x01, 0x41])) = .ok (.lit 1 [0x41], []) := by decide

/-- `41 41 46` to be packed and unpacked, ENC, the connection and DEC taking turns: the state after ENC's three symbols,
two items carried and one element taken is a moment with ENC pending and DEC inside a token. -/
def chained (turns : List Turn) : State :=
  { State.reset with encIn := items [0x41, 0x41, 0x46] ++ [.eos], turns := turns }

theorem chainStart_chained (turns : List Turn) : ChainStart [0x41, 0x41, 0x46] (chained turns) :=
  ⟨idle_reset_enc, idle_reset_dec, rfl, rfl, rfl⟩

theorem witness_ChainedUnitsReproduceInput :
    ChainStart [0x41, 0x41, 0x46]
      (chained [.encItem, .encItem, .encItem, .passItem, .decItem, .passItem, .decToken, .encItem]) ∧
    [Turn.encItem, .encItem, .encItem, .passItem, .decItem, .passItem, .decToken, .encItem].all Turn.chains = true :=
  ⟨chainStart_chained _, rfl⟩

/-- The moment just named: `02 41` emitted, `02` taken, `41` on its way, `46` pending. -/
theorem witness_ChainedUnitsAtAMoment :
    (match stepN 6 (chained [.encItem, .encItem, .encItem, .passItem, .decItem, .passItem]) with
      | .next t => some (t.encOut, t.dec.phase, t.decIn ++ t.notPassed, t.enc.pending, t.decOut)
      | .fault _ => none
      | .refused _ => none) = some (items [0x02, 0x41], .sym, items [0x41], [0x46], []) := by decide +kernel

/-- The whole call with every item carried and taken: the premises of the statement's clause on the end. -/
theorem witness_ChainedUnitsAtTheEnd :
    (match stepN 14 (chained (List.replicate 4 .encItem ++ List.replicate 6 .passItem ++ List.replicate 4 .decToken)) with
      | .next t => some (t.encIn, t.decIn, t.notPassed, t.decOut)
      | .fault _ => none
      | .refused _ => none) = some ([], [], [], items [0x41, 0x41, 0x46] ++ [.eos]) := by decide +kernel

end Sys2Proof.Tests
end

/-! # Proofs: the scope of a step (00_scope.md)

What an instruction of one unit reads and writes (O55), and which instruction a step runs (O57). -/

namespace Sys2Proof.Machine

/-! ### The part of the state that belongs to one unit -/

/-- `u` with ENC's registers, output and draw counter taken from `s`: the part of the state ENC's instructions act on
(rule R16). -/
def State.withEnc (u s : State) : State := { u with enc := s.enc, encOut := s.encOut, encDraws := s.encDraws }

/-- `u` with DEC's registers, output and draw counter taken from `s`: the part of the state DEC's instructions act on
(rule R16). -/
def State.withDec (u s : State) : State := { u with dec := s.dec, decOut := s.decOut, decDraws := s.decDraws }

@[simp] theorem State.withEnc_self (s : State) : s.withEnc s = s := rfl

@[simp] theorem State.withDec_self (s : State) : s.withDec s = s := rfl

theorem State.withEnc_eq_of_agree {u s : State} (henc : u.enc = s.enc) (hout : u.encOut = s.encOut)
    (hdraws : u.encDraws = s.encDraws) : u.withEnc s = u := by
  simp [withEnc, ← henc, ← hout, ← hdraws]

theorem State.withDec_eq_of_agree {u s : State} (hdec : u.dec = s.dec) (hout : u.decOut = s.decOut)
    (hdraws : u.decDraws = s.decDraws) : u.withDec s = u := by
  simp [withDec, ← hdec, ← hout, ← hdraws]

/-! ### Operations that stay within one unit's part -/

/-- `f` stays within the part of the state that `put u s` takes from `s`: whatever the rest `u` holds, `f` answers the same
on that part and leaves the rest as it is. -/
def LocalTo (put : State → State → State) (f : State → Result) : Prop :=
  ∀ u s, f (put u s) = andThen (f s) fun t => .next (put u t)

section LocalTo

variable {put : State → State → State} {f g : State → Result}

/-- A local operation that completes, run beside another rest. -/
theorem LocalTo.exec_put (hf : LocalTo put f) {s t : State} (h : f s = .next t) (u : State) :
    f (put u s) = .next (put u t) := by
  rw [hf u s, h, andThen_next]

/-- A local operation leaves the rest of its own state unchanged. -/
theorem LocalTo.frame (hf : LocalTo put f) (hself : ∀ s, put s s = s) {s t : State} (h : f s = .next t) :
    t = put s t := by
  have hput := hf.exec_put h s
  rw [hself, h] at hput
  exact Host.Outcome.next.inj hput

theorem LocalTo.next {op : State → State} (h : ∀ u s, op (put u s) = put u (op s)) :
    LocalTo put fun s => .next (op s) :=
  fun u s => congrArg Host.Outcome.next (h u s)

theorem LocalTo.fault (r : Fault) : LocalTo put fun _ => .fault r := fun _ _ => rfl

theorem LocalTo.andThen (hf : LocalTo put f) (hg : LocalTo put g) : LocalTo put fun s => andThen (f s) g := by
  intro u s
  show Machine.andThen (f (put u s)) g = _
  rw [hf u s, andThen_assoc, andThen_assoc]
  exact congrArg (Machine.andThen (f s)) (funext fun t => hg u t)

/-- A choice is local if its condition does not depend on the rest. -/
theorem LocalTo.ite {c : State → Prop} [DecidablePred c] (hc : ∀ u s, c (put u s) ↔ c s)
    (hf : LocalTo put f) (hg : LocalTo put g) : LocalTo put fun s => if c s then f s else g s := by
  intro u s
  by_cases h : c s
  · simp only [hc, h, if_true]; exact hf u s
  · simp only [hc, h, if_false]; exact hg u s

end LocalTo

/-! ### ENC's operations -/

theorem emitPendingRun_localTo_enc : LocalTo State.withEnc emitPendingRun :=
  .ite (c := fun s => s.enc.pv = true) (fun _ _ => .rfl) (.next fun _ _ => rfl) (.fault _)

theorem flushRun_localTo_enc : LocalTo State.withEnc flushRun :=
  emitPendingRun_localTo_enc.andThen (.next fun _ _ => rfl)

theorem absorbQueue_withEnc (u s : State) : absorbQueue (u.withEnc s) = u.withEnc (absorbQueue s) := by
  unfold absorbQueue
  rw [apply_ite u.withEnc, apply_ite u.withEnc]
  rfl

theorem makeRoom_withEnc (u s : State) : makeRoom (u.withEnc s) = u.withEnc (makeRoom s) := by
  unfold makeRoom
  rw [apply_ite u.withEnc]
  rfl

theorem encMatchStep_localTo_enc : LocalTo State.withEnc encMatchStep := by
  have hsplit : LocalTo State.withEnc splitRun :=
    .ite (c := fun s => s.enc.rl = Config.maxRun) (fun _ _ => .rfl) flushRun_localTo_enc (.next fun _ _ => rfl)
  intro u s
  rw [encMatchStep, absorbQueue_withEnc]
  exact hsplit u (addRun 1 (absorbQueue s))

theorem encMismatchStep_localTo_enc (b : Byte) : LocalTo State.withEnc (encMismatchStep b) := by
  have hend : LocalTo State.withEnc endRun :=
    .ite (c := fun s => s.enc.rl ≠ 0) (fun _ _ => .rfl) flushRun_localTo_enc (.next fun _ _ => rfl)
  refine hend.andThen (.next fun u s => ?_)
  rw [makeRoom_withEnc]
  rfl

theorem execEncSym_localTo_enc (b : Byte) : LocalTo State.withEnc (execEncSym b) :=
  .ite (c := fun s => s.enc.matchesPat b = true) (fun _ _ => .rfl) encMatchStep_localTo_enc
    (encMismatchStep_localTo_enc b)

theorem emitLastToken_localTo_enc (zeroRun : Bool) : LocalTo State.withEnc (emitLastToken zeroRun) :=
  .ite (c := fun s => s.enc.pv = false) (fun _ _ => .rfl) (.next fun _ _ => rfl) <|
  .ite (c := fun s => s.enc.qLen ≠ 0) (fun _ _ => .rfl) (.next fun _ _ => rfl) <|
  .ite (c := fun s => s.enc.rl ≠ 0 ∨ zeroRun = true) (fun _ _ => .rfl) emitPendingRun_localTo_enc (.next fun _ _ => rfl)

theorem encFinish_localTo_enc (zeroRun : Bool) : LocalTo State.withEnc (encFinish zeroRun) :=
  (emitLastToken_localTo_enc zeroRun).andThen (.next fun _ _ => rfl)

/-! ### DEC's operations -/

theorem takeElement_withDec (v : Byte) (u s : State) : takeElement v (u.withDec s) = u.withDec (takeElement v s) := by
  have hdec : (u.withDec s).dec = s.dec := rfl
  unfold takeElement
  rw [hdec]
  cases s.dec.phase with
  | head => dsimp only; split <;> rfl
  | sym => rfl
  | count => dsimp only; split <;> rfl
  | body => rfl
  | fault => rfl

theorem takeElements_withDec (vs : List Byte) (u s : State) :
    takeElements vs (u.withDec s) = u.withDec (takeElements vs s) := by
  induction vs generalizing s with
  | nil => rfl
  | cons v vs ih => rw [takeElements_cons, takeElements_cons, takeElement_withDec, ih]

theorem execDecEnd_localTo_dec : LocalTo State.withDec execDecEnd := by
  intro u s
  have hdec : (u.withDec s).dec = s.dec := rfl
  unfold execDecEnd
  rw [hdec]
  cases s.dec.phase <;> rfl

/-! ### Every instruction stays within its unit's part -/

theorem exec_localTo_enc {i : Instr} (h : i.isEnc = true) : LocalTo State.withEnc (exec i) := by
  cases i with
  | encReset => exact .next fun _ _ => rfl
  | encSym b => exact execEncSym_localTo_enc b
  | encEnd => exact encFinish_localTo_enc Config.emitZeroRun
  | lit | run | decReset | decElem | decEnd => cases h

theorem exec_localTo_dec {i : Instr} (h : i.isEnc = false) : LocalTo State.withDec (exec i) := by
  cases i with
  | lit c syms => exact .next (takeElements_withDec (litElements c syms))
  | run n sym => exact .next (takeElements_withDec (runElements n sym))
  | decReset => exact .next fun _ _ => rfl
  | decElem v => exact .next (takeElement_withDec v)
  | decEnd => exact execDecEnd_localTo_dec
  | encReset | encSym | encEnd => cases h

/-- Settles O55: every instruction is local to its own unit's part of the state, which gives both what it leaves unchanged
and what it cannot read. -/
theorem unitsAreIsolated : Obligations.UnitsAreIsolated := by
  intro i s s' t h
  constructor
  · intro hi
    have hlocal := exec_localTo_enc hi
    refine ⟨hlocal.frame State.withEnc_self h, fun henc hout hdraws => ?_⟩
    have hput := hlocal.exec_put h s'
    rwa [State.withEnc_eq_of_agree henc hout hdraws] at hput
  · intro hi
    have hlocal := exec_localTo_dec hi
    refine ⟨hlocal.frame State.withDec_self h, fun hdec hout hdraws => ?_⟩
    have hput := hlocal.exec_put h s'
    rwa [State.withDec_eq_of_agree hdec hout hdraws] at hput

/-! ### What a step fetches -/

theorem step_of_no_turn {s : State} (h : s.turns = []) : step s = .next s := by
  simp [step, h]

/-- A turn that delivers nothing runs nothing. -/
theorem step_of_fetch_none {s s' : State} {t : Turn} {rest : List Turn} (h : s.turns = t :: rest)
    (hf : fetch t { s with turns := rest } = (none, s')) : step s = .next s' := by
  simp [step, h, hf]

/-- A turn that delivers an instruction runs it on the state the fetch leaves. -/
theorem step_of_fetch_some {s s' : State} {t : Turn} {rest : List Turn} {i : Instr} (h : s.turns = t :: rest)
    (hf : fetch t { s with turns := rest } = (some i, s')) : step s = exec i s' := by
  simp [step, h, hf]

/-- Two turns that fetch the same from the same state make the same step. -/
theorem step_eq_of_fetch_eq {s : State} {t t' : Turn} {rest : List Turn} (h : s.turns = t :: rest)
    (hf : fetch t { s with turns := rest } = fetch t' { s with turns := rest }) :
    step s = step { s with turns := t' :: rest } := by
  simp [step, h, hf]

theorem fetchEncItem_of_nil {s : State} (h : s.encIn = []) : fetchEncItem s = (none, s) := by
  simp [fetchEncItem, h]

theorem fetchEncItem_of_elem {s : State} {b : Byte} {r : List Item} (h : s.encIn = .elem b :: r) :
    fetchEncItem s = (some (.encSym b), { s with encIn := r }) := by
  simp [fetchEncItem, h]

theorem fetchEncItem_of_eos {s : State} {r : List Item} (h : s.encIn = .eos :: r) :
    fetchEncItem s = (some .encEnd, { s with encIn := r }) := by
  simp [fetchEncItem, h]

theorem fetchDecItem_of_nil {s : State} (h : s.decIn = []) : fetchDecItem s = (none, s) := by
  simp [fetchDecItem, h]

theorem fetchDecItem_of_elem {s : State} {v : Byte} {r : List Item} (h : s.decIn = .elem v :: r) :
    fetchDecItem s = (some (.decElem v), { s with decIn := r }) := by
  simp [fetchDecItem, h]

theorem fetchDecItem_of_eos {s : State} {r : List Item} (h : s.decIn = .eos :: r) :
    fetchDecItem s = (some .decEnd, { s with decIn := r }) := by
  simp [fetchDecItem, h]

theorem fetchDecToken_of_ok {s : State} {i : Instr} {after : List Byte}
    (h : decode (leadingElements s.decIn) = .ok (i, after)) :
    fetchDecToken s = (some i, { s with decIn := s.decIn.drop (elementsOf i).length }) := by
  simp [fetchDecToken, h]

/-- Where no whole token stands, a token turn takes one item (log entry 7). -/
theorem fetchDecToken_of_error {s : State} {e : DecodeError} (h : decode (leadingElements s.decIn) = .error e) :
    fetchDecToken s = fetchDecItem s := by
  simp [fetchDecToken, h]

theorem passItem_of_all_carried {s : State} (h : s.encOut.length ≤ s.passed) : passItem s = s := by
  simp [passItem, h]

theorem passItem_of_next {s : State} {x : Item} (h : s.encOut[s.passed]? = some x) :
    passItem s = { s with decIn := s.decIn ++ [x], passed := s.passed + 1 } := by
  simp [passItem, h]

/-- Settles O57: by the kind of the turn, and for a turn that takes an item by what stands at the front of its stream. -/
theorem stepRunsTheDeliveredInstruction : Obligations.StepRunsTheDeliveredInstruction := by
  intro s rest
  refine ⟨step_of_no_turn, fun h => ⟨?encNil, ?encElem, ?encEos⟩, fun h => ⟨?decNil, ?decElem, ?decEos⟩,
    ?encReset, ?encResetDrops, ?decReset, ?decResetDrops, fun h => ⟨?wholeToken, ?noToken⟩, fun h => ⟨?carried, ?next⟩⟩
  case encNil => exact fun hin => step_of_fetch_none h (fetchEncItem_of_nil hin)
  case encElem => exact fun _ _ hin => step_of_fetch_some h (fetchEncItem_of_elem hin)
  case encEos => exact fun _ hin => step_of_fetch_some h (fetchEncItem_of_eos hin)
  case decNil => exact fun hin => step_of_fetch_none h (fetchDecItem_of_nil hin)
  case decElem => exact fun _ _ hin => step_of_fetch_some h (fetchDecItem_of_elem hin)
  case decEos => exact fun _ hin => step_of_fetch_some h (fetchDecItem_of_eos hin)
  case encReset => exact fun h => step_of_fetch_some h rfl
  case encResetDrops => exact fun h => step_of_fetch_some h rfl
  case decReset => exact fun h => step_of_fetch_some h rfl
  case decResetDrops => exact fun h => step_of_fetch_some h rfl
  case wholeToken => exact fun _ _ hd => step_of_fetch_some h (fetchDecToken_of_ok hd)
  case noToken => exact fun _ hd => step_eq_of_fetch_eq h (fetchDecToken_of_error hd)
  case carried =>
    exact fun hle => (step_passItem h).trans (congrArg Host.Outcome.next (passItem_of_all_carried hle))
  case next => exact fun _ hx => (step_passItem h).trans (congrArg Host.Outcome.next (passItem_of_next hx))

end Sys2Proof.Machine

/-! # Proofs: the registers and their invariants (10_state.md)

What an `ENC.SYM` step does to ENC's registers, said once as a relation (`EncSymStep`), and from it ENC's invariants (O50,
O51), the queue's tail (O20), the pending sequence (O30) and the state of the zero-length run (O38). What DEC's registers
say of the elements taken (O15, O51). When an instruction stops (O53), and that no step observes an unspecified register
(O54). -/

namespace Sys2Proof.Machine

/-! ### ENC's registers: invariants of the states a step can leave -/

/-- ENC's registers after `b` has been appended to the queue and latched as the pattern, with no run (rules R24, R100). -/
def EncState.pushed (e : EncState) (b : Byte) : EncState :=
  { pv := true, pat := b, rl := 0, qMem := queueWrite e.qMem (countOf e.qLen) b, qLen := e.qLen + 1 }

@[simp] theorem EncState.pushed_pv (e : EncState) (b : Byte) : (e.pushed b).pv = true := rfl
@[simp] theorem EncState.pushed_pat (e : EncState) (b : Byte) : (e.pushed b).pat = b := rfl
@[simp] theorem EncState.pushed_rl (e : EncState) (b : Byte) : (e.pushed b).rl = 0 := rfl

theorem EncState.pushed_qLen_ne_zero {e : EncState} (h : e.qLen ≠ 255) (b : Byte) : (e.pushed b).qLen ≠ 0 := by
  simp only [EncState.pushed]
  bv_omega

theorem EncState.pushed_queue {e : EncState} (h : e.qLen ≠ 255) (b : Byte) : (e.pushed b).queue = e.queue ++ [b] :=
  EncState.queue_append h rfl rfl

/-- With an empty queue, only rules R29 and R31 say anything. -/
theorem EncState.Inv.of_empty_queue {e : EncState} (hq : e.qLen = 0) (hpv : e.pv = false → e.rl = 0)
    (hr : e.rl.toNat ≤ 253) : e.Inv where
  run_xor_queue _ := hq
  queue_last h := absurd hq h
  queue_chain := by rw [EncState.queue_eq_nil hq]; exact .nil
  none_idle h := ⟨hpv h, hq⟩
  rl_le := hr

theorem EncState.Idle.inv {e : EncState} (h : e.Idle) : e.Inv :=
  .of_empty_queue h.qLen (fun _ => h.rl) (by rw [h.rl]; decide)

theorem encReinit_idle (s : State) : (encReinit s).enc.Idle := ⟨rfl, rfl, rfl⟩

/-- A queue and a run exclude each other from the queue's side too (rule R26). -/
theorem EncState.Inv.rl_of_queue {e : EncState} (h : e.Inv) (hq : e.qLen ≠ 0) : e.rl = 0 :=
  by_contra fun hr => hq (h.run_xor_queue hr)

theorem EncState.Inv.pv_of_run {e : EncState} (h : e.Inv) (hr : e.rl ≠ 0) : e.pv = true :=
  Bool.of_not_eq_false fun hpv => hr (h.none_idle hpv).1

/-- A symbol that does not match can be queued behind the last one, which is the pattern (rules R27, R28). -/
theorem EncState.Inv.pushed {e : EncState} (h : e.Inv) (hq : e.qLen ≠ 255) {b : Byte} (hm : e.matchesPat b = false) :
    (e.pushed b).Inv where
  run_xor_queue hr := absurd rfl hr
  queue_last _ := ⟨rfl, by rw [EncState.pushed_queue hq]; simp⟩
  queue_chain := by
    rw [EncState.pushed_queue hq]
    refine h.queue_chain.append (.singleton b) fun x hx y hy => ?_
    obtain rfl : b = y := by simpa using hy
    have hne : e.qLen ≠ 0 := fun h0 => by simp [EncState.queue_eq_nil h0] at hx
    obtain ⟨hpv, hlast⟩ := h.queue_last hne
    obtain rfl : e.pat = x := by simpa [hlast] using hx
    rcases matchesPat_eq_false_iff.mp hm with hn | hn
    · simp [hpv] at hn
    · exact hn.symm
  none_idle hpv := by cases hpv
  rl_le := by simp

/-! ### What an `ENC.SYM` step does to ENC's registers -/

/-- `EncSymStep b e e' out`: from registers `e` that meet the invariant, `ENC.SYM(b)` leaves `e'` and appends the elements
`out`. One constructor per case of P97. -/
inductive EncSymStep (b : Byte) (e : EncState) : EncState → List Byte → Prop where
  /-- A match with two or more symbols queued (rule R101). -/
  | flushQueue (hm : e.matchesPat b = true) (hq : 2 ≤ e.qLen.toNat) :
      EncSymStep b e { e with rl := 1, qLen := 0 } (litElements e.qLen e.queue)
  /-- A match with exactly one symbol queued (rule R102). -/
  | reclassify (hm : e.matchesPat b = true) (hq : e.qLen = 1) : EncSymStep b e { e with rl := 2, qLen := 0 } []
  /-- A match that lengthens the run (rule R103). -/
  | lengthenRun (hm : e.matchesPat b = true) (hq : e.qLen = 0) (hr : e.rl.toNat < 253) :
      EncSymStep b e { e with rl := e.rl + 1 } []
  /-- A match that makes the 254 flush (rule R104). -/
  | splitRun (hm : e.matchesPat b = true) (hq : e.qLen = 0) (hr : e.rl = 253) :
      EncSymStep b e { e with rl := 0 } (runElements Config.maxRun e.pat)
  /-- A mismatch that ends a run (rule R99). -/
  | endRun (hm : e.matchesPat b = false) (hq : e.qLen = 0) (hr : e.rl ≠ 0) :
      EncSymStep b e (e.pushed b) (runElements e.rl e.pat)
  /-- A mismatch that finds the queue full (rule R105). -/
  | makeRoom (hm : e.matchesPat b = false) (hq : e.qLen = 255) :
      EncSymStep b e ({ e with qLen := 0 }.pushed b) (litElements e.qLen e.queue)
  /-- A mismatch that is queued and flushes nothing (rule R100). -/
  | append (hm : e.matchesPat b = false) (hq : e.qLen ≠ 255) (hr : e.rl = 0) : EncSymStep b e (e.pushed b) []

/-- A match step once the queue has been absorbed: the symbol is counted, and at 254 the run is flushed (rule R104). -/
theorem splitRun_addRun {s : State} (hpv : s.enc.pv = true) : splitRun (addRun 1 s) = .next
    (if s.enc.rl = 253 then
      { s with enc := { s.enc with rl := 0 }, encOut := s.encOut ++ items (runElements Config.maxRun s.enc.pat) }
    else { s with enc := { s.enc with rl := s.enc.rl + 1 } }) := by
  have hmax : s.enc.rl + 1 = Config.maxRun ↔ s.enc.rl = 253 := by
    simp only [Config.maxRun]; constructor <;> intro h <;> bv_omega
  unfold splitRun
  simp only [addRun_enc, hmax]
  split
  · rename_i hr
    rw [flushRun_of_pv (by exact hpv), addRun_enc, hmax.mpr hr]
    rfl
  · rfl

theorem encMatchStep_steps {s : State} (h : s.enc.Inv) {b : Byte} (hm : s.enc.matchesPat b = true) :
    ∃ e out, EncSymStep b s.enc e out ∧ encMatchStep s = .next { s with enc := e, encOut := s.encOut ++ items out } := by
  have hpv : s.enc.pv = true := (matchesPat_iff.mp hm).1
  unfold encMatchStep
  rcases absorbQueue_cases s with ⟨hq, habs⟩ | ⟨hq, habs⟩ | ⟨hq, habs⟩
  · have hr : s.enc.rl = 0 := h.rl_of_queue fun h0 => by simp [countOf, h0] at hq
    refine ⟨_, _, .flushQueue hm hq, ?_⟩
    rw [habs, splitRun_addRun (by exact hpv)]
    simp [flushLit_eq, hr]
  · have hr : s.enc.rl = 0 := h.rl_of_queue (by rw [hq]; decide)
    refine ⟨_, _, .reclassify hm hq, ?_⟩
    rw [habs, splitRun_addRun (by exact hpv)]
    simp [hr]
  · rw [habs, splitRun_addRun hpv]
    split
    · rename_i hr
      exact ⟨_, _, .splitRun hm hq hr, rfl⟩
    · rename_i hr
      have hle := h.rl_le
      refine ⟨_, _, .lengthenRun hm hq (by bv_omega), ?_⟩
      simp

/-- The append and the new pattern of a mismatch step, once no run is left. -/
theorem latchPattern_enqueue {s : State} (hr : s.enc.rl = 0) (b : Byte) :
    latchPattern b (enqueue b s) = { s with enc := s.enc.pushed b } := by
  simp [latchPattern, enqueue, State.setEnc, EncState.pushed, hr]

theorem makeRoom_of_full {s : State} (h : s.enc.qLen = 255) : makeRoom s = flushLit s := if_pos h

theorem makeRoom_of_room {s : State} (h : s.enc.qLen ≠ 255) : makeRoom s = s := if_neg h

theorem encMismatchStep_steps {s : State} (h : s.enc.Inv) {b : Byte} (hm : s.enc.matchesPat b = false) :
    ∃ e out, EncSymStep b s.enc e out ∧
      encMismatchStep b s = .next { s with enc := e, encOut := s.encOut ++ items out } := by
  unfold encMismatchStep endRun
  by_cases hr : s.enc.rl = 0
  · rw [if_neg (not_not.mpr hr), andThen_next]
    by_cases hq : s.enc.qLen = 255
    · refine ⟨_, _, .makeRoom hm hq, ?_⟩
      rw [makeRoom_of_full hq, latchPattern_enqueue (by exact hr)]
      rfl
    · refine ⟨_, _, .append hm hq hr, ?_⟩
      rw [makeRoom_of_room hq, latchPattern_enqueue hr]
      simp
  · have hq := h.run_xor_queue hr
    have hroom : s.enc.qLen ≠ 255 := by rw [hq]; decide
    refine ⟨_, _, .endRun hm hq hr, ?_⟩
    rw [if_pos hr, flushRun_of_pv (h.pv_of_run hr), andThen_next, makeRoom_of_room (by exact hroom),
      latchPattern_enqueue rfl]
    rfl

/-- Where the invariant holds, `ENC.SYM` completes, and the relation says with which registers and which output. -/
theorem exec_encSym_steps {s : State} (h : s.enc.Inv) (b : Byte) :
    ∃ e out, EncSymStep b s.enc e out ∧
      exec (.encSym b) s = .next { s with enc := e, encOut := s.encOut ++ items out } := by
  show ∃ e out, _ ∧ execEncSym b s = _
  unfold execEncSym
  split
  · rename_i hm; exact encMatchStep_steps h hm
  · rename_i hm; exact encMismatchStep_steps h (Bool.eq_false_of_not_eq_true hm)

/-- Every `ENC.SYM` step keeps ENC's invariants. -/
theorem EncSymStep.keeps_inv {b : Byte} {e e' : EncState} {out : List Byte} (h : EncSymStep b e e' out) (hinv : e.Inv) :
    e'.Inv := by
  cases h with
  | flushQueue hm hq => exact .of_empty_queue rfl (by simp [(matchesPat_iff.mp hm).1]) (by simp)
  | reclassify hm hq => exact .of_empty_queue rfl (by simp [(matchesPat_iff.mp hm).1]) (by simp)
  | lengthenRun hm hq hr => exact .of_empty_queue hq (by simp [(matchesPat_iff.mp hm).1]) (by bv_omega)
  | splitRun hm hq hr => exact .of_empty_queue hq (fun _ => rfl) (by simp)
  | endRun hm hq hr => exact hinv.pushed (by rw [hq]; decide) hm
  | makeRoom hm hq =>
    have hne : e.qLen ≠ 0 := by rw [hq]; decide
    have hcleared : EncState.Inv { e with qLen := 0 } :=
      .of_empty_queue rfl (by simp [(hinv.queue_last hne).1]) hinv.rl_le
    exact hcleared.pushed (by simp) hm
  | append hm hq hr => exact hinv.pushed hq hm

/-- Settles O20: the three mismatch cases of a step all push `b`, the full queue after it has been emptied. -/
theorem encMismatchAppendsAtQueueTail : Obligations.EncMismatchAppendsAtQueueTail := by
  intro b s hinv hmis
  obtain ⟨e', out, hstep, hexec⟩ := exec_encSym_steps hinv b
  refine ⟨_, hexec, ?_⟩
  cases hstep with
  | flushQueue hm | reclassify hm | lengthenRun hm | splitRun hm => simp [hmis] at hm
  | endRun hm hq =>
    have hne : s.enc.qLen ≠ 255 := by rw [hq]; decide
    rw [if_neg hne, if_neg hne]
    exact ⟨EncState.pushed_queue hne b, fun j hj => queueWrite_get_of_ne _ _ _ j hj⟩
  | makeRoom hm hq =>
    rw [if_pos hq, if_pos hq]
    exact ⟨EncState.pushed_queue (by simp) b, fun j hj => queueWrite_get_of_ne _ _ _ j hj⟩
  | append hm hne hr =>
    rw [if_neg hne, if_neg hne]
    exact ⟨EncState.pushed_queue hne b, fun j hj => queueWrite_get_of_ne _ _ _ j hj⟩

/-! ### A call of `ENC.SYM` events from the reset state -/

theorem encSyms_append (bs cs : List Byte) : encSyms (bs ++ cs) = encSyms bs ++ encSyms cs := List.map_append

/-- The `ENC.SYM` events of a call and one more. -/
theorem execAll_encSyms_concat {cs : List Byte} {s u : State} (h : execAll (encSyms cs) s = .next u) (b : Byte) :
    execAll (encSyms (cs ++ [b])) s = exec (.encSym b) u := by
  rw [encSyms_append, execAll_append, h, andThen_next]
  show andThen (exec (.encSym b) u) Host.Outcome.next = _
  cases exec (.encSym b) u <;> rfl

/-- Any symbols can be consumed from a state that meets ENC's invariants, which are kept. -/
theorem execAll_encSyms_inv (bs : List Byte) {s : State} (h : s.enc.Inv) :
    ∃ t, execAll (encSyms bs) s = .next t ∧ t.enc.Inv := by
  induction bs using List.reverseRecOn with
  | nil => exact ⟨s, rfl, h⟩
  | append_singleton cs b ih =>
    obtain ⟨u, hrun, hu⟩ := ih
    obtain ⟨e', out, hstep, hexec⟩ := exec_encSym_steps hu b
    exact ⟨_, (execAll_encSyms_concat hrun b).trans hexec, hstep.keeps_inv hu⟩

/-- The registers of the zero-length run (rule R31) are left by the 254 flush and by no other step. -/
theorem EncSymStep.zero_run_iff {b : Byte} {e e' : EncState} {out : List Byte} (h : EncSymStep b e e' out) :
    (e'.pv = true ∧ e'.rl = 0 ∧ e'.qLen = 0) ↔ e.matchesPat b = true ∧ e.qLen = 0 ∧ e.rl = 253 := by
  cases h with
  | flushQueue hm hq => exact iff_of_false (fun ⟨_, hz, _⟩ => by simp at hz) fun ⟨_, h0, _⟩ => by simp [h0] at hq
  | reclassify hm hq => exact iff_of_false (fun ⟨_, hz, _⟩ => by simp at hz) fun ⟨_, h0, _⟩ => by simp [hq] at h0
  | lengthenRun hm hq hr =>
    exact iff_of_false (fun ⟨_, hz, _⟩ => by bv_omega) fun ⟨_, _, h253⟩ => by simp [h253] at hr
  | splitRun hm hq hr => exact iff_of_true ⟨(matchesPat_iff.mp hm).1, rfl, hq⟩ ⟨hm, hq, hr⟩
  | endRun hm hq hr =>
    exact iff_of_false (fun ⟨_, _, h0⟩ => EncState.pushed_qLen_ne_zero (by rw [hq]; decide) b h0)
      fun ⟨hm', _⟩ => Bool.false_ne_true (hm.symm.trans hm')
  | makeRoom hm hq =>
    exact iff_of_false (fun ⟨_, _, h0⟩ => EncState.pushed_qLen_ne_zero (by simp) b h0)
      fun ⟨hm', _⟩ => Bool.false_ne_true (hm.symm.trans hm')
  | append hm hq hr =>
    exact iff_of_false (fun ⟨_, _, h0⟩ => EncState.pushed_qLen_ne_zero hq b h0)
      fun ⟨hm', _⟩ => Bool.false_ne_true (hm.symm.trans hm')

/-- What the 254 flush emits. -/
theorem EncSymStep.out_of_split {b : Byte} {e e' : EncState} {out : List Byte} (h : EncSymStep b e e' out)
    (hm : e.matchesPat b = true) (hq : e.qLen = 0) (hr : e.rl = 253) : out = runElements Config.maxRun b := by
  cases h with
  | splitRun => rw [(matchesPat_iff.mp hm).2]
  | flushQueue _ h2 => simp [hq] at h2
  | reclassify _ h1 => simp [hq] at h1
  | lengthenRun _ _ h3 => simp [hr] at h3
  | endRun h4 | makeRoom h4 | append h4 => simp [hm] at h4

/-- Settles O38: the last step of the call is a 254 flush or leaves other registers, and without a step there is no
pattern. -/
theorem zeroRunStateIsRightAfter254Flush : Obligations.ZeroRunStateIsRightAfter254Flush := by
  intro bs s t hidle hrun
  cases bs using List.reverseRecOn with
  | nil =>
    obtain rfl : s = t := Host.Outcome.next.inj hrun
    simp [hidle.pv]
  | append_singleton cs b =>
    obtain ⟨u, hu, hinv⟩ := execAll_encSyms_inv cs hidle.inv
    obtain ⟨e', out, hstep, hexec⟩ := exec_encSym_steps hinv b
    rw [execAll_encSyms_concat hu, hexec] at hrun
    obtain rfl := Host.Outcome.next.inj hrun
    refine hstep.zero_run_iff.trans ⟨fun ⟨hm, hq, hr⟩ => ?_, ?_⟩
    · exact ⟨cs, b, u, rfl, hu, hm, hq, hr, by rw [hstep.out_of_split hm hq hr]; rfl⟩
    · rintro ⟨cs', b', u', hbs, hu', hm, hq, hr, -⟩
      obtain ⟨rfl, hb⟩ := List.append_inj' hbs rfl
      obtain rfl : b = b' := by simpa using hb
      obtain rfl : u = u' := Host.Outcome.next.inj (hu.symm.trans hu')
      exact ⟨hm, hq, hr⟩

end Sys2Proof.Machine

namespace Sys2Proof

/-! ### Streams, token by token -/

/-- What a complete token at the front of a stream looks like. -/
theorem decode_ok_cases {vs rest : List Byte} {i : Instr} (h : decode vs = .ok (i, rest)) :
    (∃ n s, n ≠ Config.marker ∧ i = .run n s ∧ vs = n :: s :: rest) ∨
    (∃ c ss, ss.length = countOf c ∧ i = .lit c ss ∧ vs = Config.marker :: c :: (ss ++ rest)) := by
  match vs with
  | [] => simp at h
  | [m] => by_cases hm : m = Config.marker <;> simp [decode, hm] at h
  | m :: c :: body =>
    by_cases hm : m = Config.marker
    · subst hm
      rw [decode_marker] at h
      split at h
      · rename_i hc
        cases h
        exact .inr ⟨c, _, List.length_take_of_le hc, rfl, by rw [List.take_append_drop]⟩
      · cases h
    · rw [decode_run hm] at h
      cases h
      exact .inl ⟨m, c, hm, rfl, rfl⟩

/-- The ways a stream that is not empty can fail to begin with a complete token (rule R81). -/
theorem decode_error_cases {vs : List Byte} {e : DecodeError} (hv : vs ≠ []) (h : decode vs = .error e) :
    (∃ n, n ≠ Config.marker ∧ vs = [n] ∧ e = .runSymbolMissing) ∨
    (vs = [Config.marker] ∧ e = .litCountMissing) ∨
    (∃ c ss, ss.length < countOf c ∧ vs = Config.marker :: c :: ss ∧ e = .litSymbolsMissing) := by
  match vs with
  | [] => exact absurd rfl hv
  | [m] =>
    by_cases hm : m = Config.marker
    · subst hm
      rw [decode_marker_alone] at h
      cases h
      exact .inr (.inl ⟨rfl, rfl⟩)
    · rw [decode_run_alone hm] at h
      cases h
      exact .inl ⟨m, hm, rfl, rfl⟩
  | m :: c :: body =>
    by_cases hm : m = Config.marker
    · subst hm
      rw [decode_marker] at h
      split at h
      · cases h
      · rename_i hc
        cases h
        exact .inr (.inr ⟨c, body, Nat.lt_of_not_le hc, rfl, rfl⟩)
    · rw [decode_run hm] at h
      cases h

/-- Induction along the tokens of a stream: it is empty, its front is no complete token, or it is a token and a shorter
stream. -/
theorem stream_induction {P : List Byte → Prop} (nil : P [])
    (stuck : ∀ vs e, vs ≠ [] → decode vs = .error e → P vs)
    (token : ∀ vs i rest, decode vs = .ok (i, rest) → P rest → P vs) (vs : List Byte) : P vs := by
  by_cases hv : vs = []
  · rw [hv]; exact nil
  · match hd : decode vs with
    | .error e => exact stuck vs e hv hd
    | .ok (i, rest) =>
      have hshrinks := decode_shrinks hd
      exact token vs i rest hd (stream_induction nil stuck token rest)
termination_by vs.length
decreasing_by omega

@[simp] theorem decodeStream_nil : decodeStream [] = some [] := rfl

theorem decodeStream_of_decode {vs rest : List Byte} {i : Instr} (h : decode vs = .ok (i, rest)) :
    decodeStream vs = (decodeStream rest).map (sem i ++ ·) := by
  rw [decodeStream, decodeStream, tokens_of_decode h]
  cases tokens rest <;> simp

theorem decodeStream_of_decode_error {vs : List Byte} {e : DecodeError} (hv : vs ≠ []) (h : decode vs = .error e) :
    decodeStream vs = none := by
  rw [decodeStream, tokens_of_decode_error hv h]

/-- Two well-formed streams one after the other decode to what they decode to, one after the other (rule R152). -/
theorem decodeStream_append {vs ws bs cs : List Byte} (hv : decodeStream vs = some bs) (hw : decodeStream ws = some cs) :
    decodeStream (vs ++ ws) = some (bs ++ cs) := by
  induction vs using stream_induction generalizing bs with
  | nil => cases hv; exact hw
  | stuck vs e hne hd => rw [decodeStream_of_decode_error hne hd] at hv; cases hv
  | token vs i rest hd ih =>
    rw [decodeStream_of_decode hd, Option.map_eq_some_iff] at hv
    obtain ⟨bs', hrest, rfl⟩ := hv
    rw [decodeStream_of_decode (decode_append hd ws), ih hrest, Option.map_some, List.append_assoc]

end Sys2Proof

namespace Sys2Proof.Machine

theorem decodeStream_runElements {n : Byte} (h : n ≠ Config.marker) (s : Byte) :
    decodeStream (runElements n s) = some (runSymbols n s) := by
  rw [runElements, decodeStream_of_decode (decode_run h s [])]
  simp [sem, runSymbols]

theorem decodeStream_litElements {c : Byte} {ss : List Byte} (h : ss.length = countOf c) :
    decodeStream (litElements c ss) = some ss := by
  have hd : decode (litElements c ss) = .ok (.lit c ss, []) := by
    rw [litElements, decode_marker, if_pos h.ge, ← h, List.take_length, List.drop_length]
  rw [decodeStream_of_decode hd]
  simp [sem]

/-! ### The pending sequence (rule R30) -/

theorem EncState.pending_of_empty_queue {e : EncState} (h : e.qLen = 0) : e.pending = runSymbols e.rl e.pat :=
  if_neg (not_not.mpr h)

theorem EncState.pending_of_no_run {e : EncState} (h : e.rl = 0) : e.pending = e.queue := by
  by_cases hq : e.qLen = 0
  · rw [EncState.pending_of_empty_queue hq, EncState.queue_eq_nil hq, h]; rfl
  · exact if_pos hq

theorem EncState.pending_pushed {e : EncState} (h : e.qLen ≠ 255) (b : Byte) :
    (e.pushed b).pending = e.queue ++ [b] := by
  rw [EncState.pending_of_no_run rfl, EncState.pushed_queue h]

theorem EncState.Idle.pending {e : EncState} (h : e.Idle) : e.pending = [] := by
  rw [EncState.pending_of_no_run h.rl, EncState.queue_eq_nil h.qLen]

/-- Rule R30's bound: a queue holds at most 255 symbols, a run at most 253. -/
theorem EncState.pending_length_le (e : EncState) : e.pending.length ≤ 255 := by
  unfold EncState.pending
  split
  · rw [EncState.queue_length]; exact Nat.le_of_lt_succ e.qLen.isLt
  · rw [runSymbols, List.length_replicate]; exact Nat.le_of_lt_succ e.rl.isLt

/-- One more symbol in a run that does not wrap. -/
theorem runSymbols_succ {n : Byte} (h : n.toNat < 255) (s : Byte) : runSymbols n s ++ [s] = runSymbols (n + 1) s := by
  have hn : countOf (n + 1) = countOf n + 1 := by simp only [countOf]; bv_omega
  rw [runSymbols, runSymbols, hn, List.replicate_succ']

/-- The one queued symbol is the pattern (rule R27). -/
theorem EncState.Inv.queue_of_single {e : EncState} (h : e.Inv) (hq : e.qLen = 1) : e.queue = [e.pat] := by
  obtain ⟨-, hlast⟩ := h.queue_last (by rw [hq]; decide)
  have hlen := e.queue_length
  rw [hq] at hlen
  obtain ⟨x, hx⟩ := List.length_eq_one_iff.mp hlen
  rw [hx] at hlast ⊢
  exact congrArg (fun y => [y]) (Option.some.inj hlast)

/-- After a step there is a pattern, and it is the symbol just consumed. -/
theorem EncSymStep.latches {b : Byte} {e e' : EncState} {out : List Byte} (h : EncSymStep b e e' out) :
    e'.pv = true ∧ e'.pat = b := by
  cases h with
  | flushQueue hm | reclassify hm | lengthenRun hm | splitRun hm => exact (matchesPat_iff.mp hm).imp_right Eq.symm
  | endRun | makeRoom | append => exact ⟨rfl, rfl⟩

/-- One step of rule R30: what is emitted is well-formed, and it decodes to the symbols that were pending with the new one,
less those still pending. -/
theorem EncSymStep.covers {b : Byte} {e e' : EncState} {out : List Byte} (h : EncSymStep b e e' out) (hinv : e.Inv) :
    ∃ done, decodeStream out = some done ∧ done ++ e'.pending = e.pending ++ [b] := by
  cases h with
  | flushQueue hm hq =>
    have hne : e.qLen ≠ 0 := fun h0 => by simp [h0] at hq
    refine ⟨e.queue, decodeStream_litElements e.queue_length, ?_⟩
    rw [EncState.pending_of_no_run (hinv.rl_of_queue hne), EncState.pending_of_empty_queue rfl, (matchesPat_iff.mp hm).2]
    rfl
  | reclassify hm hq =>
    have hne : e.qLen ≠ 0 := by rw [hq]; decide
    refine ⟨[], rfl, ?_⟩
    rw [EncState.pending_of_no_run (hinv.rl_of_queue hne), hinv.queue_of_single hq, EncState.pending_of_empty_queue rfl,
      (matchesPat_iff.mp hm).2]
    rfl
  | lengthenRun hm hq hr =>
    refine ⟨[], rfl, ?_⟩
    rw [EncState.pending_of_empty_queue hq, EncState.pending_of_empty_queue (by exact hq), (matchesPat_iff.mp hm).2,
      runSymbols_succ (by omega)]
    rfl
  | splitRun hm hq hr =>
    refine ⟨_, decodeStream_runElements (by decide) e.pat, ?_⟩
    rw [EncState.pending_of_empty_queue hq, EncState.pending_of_empty_queue (by exact hq), (matchesPat_iff.mp hm).2, hr,
      runSymbols_succ (by decide)]
    exact List.append_nil _
  | endRun hm hq hr =>
    have hle := hinv.rl_le
    refine ⟨_, decodeStream_runElements (by simp only [Config.marker]; bv_omega) e.pat, ?_⟩
    rw [EncState.pending_of_empty_queue hq, EncState.pending_pushed (by rw [hq]; decide), EncState.queue_eq_nil hq]
    rfl
  | makeRoom hm hq =>
    have hne : e.qLen ≠ 0 := by rw [hq]; decide
    refine ⟨e.queue, decodeStream_litElements e.queue_length, ?_⟩
    rw [EncState.pending_of_no_run (hinv.rl_of_queue hne), EncState.pending_pushed (by simp),
      EncState.queue_eq_nil (e := { e with qLen := 0 }) rfl]
    rfl
  | append hm hq hr =>
    refine ⟨[], rfl, ?_⟩
    rw [EncState.pending_of_no_run hr, EncState.pending_pushed hq]
    rfl

/-- How ENC stands after the symbols `bs` of a call from the state `s`, with `out` appended so far (rules R29, R30). -/
structure EncCovers (bs : List Byte) (s t : State) (out done : List Byte) : Prop where
  /-- The symbols have been consumed. -/
  run : execAll (encSyms bs) s = .next t
  /-- Only ENC's registers and output changed. -/
  frame : t = { s with enc := t.enc, encOut := s.encOut ++ items out }
  /-- The invariants hold. -/
  inv : t.enc.Inv
  /-- What has been emitted is well-formed. -/
  decodes : decodeStream out = some done
  /-- What has been emitted, with what is pending, is the input. -/
  covers : done ++ t.enc.pending = bs
  /-- There is a pattern exactly if a symbol has been consumed. -/
  pv : t.enc.pv = true ↔ bs ≠ []
  /-- The pattern is the last symbol. -/
  pat : ∀ b, bs.getLast? = some b → t.enc.pat = b
  /-- Without a symbol nothing is emitted. -/
  empty : bs = [] → out = []

theorem EncCovers.nil {s : State} (h : s.enc.Idle) : EncCovers [] s s [] [] where
  run := rfl
  frame := by simp
  inv := h.inv
  decodes := rfl
  covers := h.pending
  pv := by simp [h.pv]
  pat := by simp
  empty _ := rfl

theorem EncCovers.concat {cs : List Byte} {s u : State} {out done : List Byte} (h : EncCovers cs s u out done)
    (b : Byte) :
    ∃ t out' done', EncCovers (cs ++ [b]) s t out' done' := by
  obtain ⟨e, new, hstep, hexec⟩ := exec_encSym_steps h.inv b
  obtain ⟨d, hd, hcov⟩ := hstep.covers h.inv
  refine ⟨_, out ++ new, done ++ d,
    { run := (execAll_encSyms_concat h.run b).trans hexec
      frame := ?frame
      inv := hstep.keeps_inv h.inv
      decodes := decodeStream_append h.decodes hd
      covers := ?covers
      pv := by simp [hstep.latches.1]
      pat := by simpa using hstep.latches.2
      empty := by simp }⟩
  case frame => rw [h.frame]; simp
  case covers => rw [List.append_assoc, hcov, ← List.append_assoc, h.covers]

theorem encCovers_of_idle (bs : List Byte) {s : State} (h : s.enc.Idle) : ∃ t out done, EncCovers bs s t out done := by
  induction bs using List.reverseRecOn with
  | nil => exact ⟨s, [], [], .nil h⟩
  | append_singleton cs b ih =>
    obtain ⟨u, out, done, hu⟩ := ih
    exact hu.concat b

/-- Settles O30, by induction over the symbols: every step moves symbols from the pending sequence to the output. -/
theorem encOutputAndPendingCoverInput : Obligations.EncOutputAndPendingCoverInput := by
  intro bs s hidle
  obtain ⟨t, out, done, h⟩ := encCovers_of_idle bs hidle
  exact ⟨t, out, done, h.run, h.frame, h.decodes, h.covers, t.enc.pending_length_le, h.pv, h.pat, h.empty⟩

/-! ### DEC's phase (rule R39) -/

/-- The phase that stands for how a stream splits: `HEAD` between tokens, else the phase of the byte that is missing. A
stream that is not empty never splits to `noElement`; `FAULT`, which no element leads to, stands for that. -/
def streamPhase : Except DecodeError (List Instr) → Phase
  | .ok _ => .head
  | .error .noElement => .fault
  | .error .runSymbolMissing => .sym
  | .error .litCountMissing => .count
  | .error .litSymbolsMissing => .body

theorem takeElement_marker {s : State} (h : s.dec.phase = .head) :
    (takeElement Config.marker s).dec = { s.dec with phase := .count } := by
  simp [takeElement, h]

theorem takeElement_length {s : State} (h : s.dec.phase = .head) {n : Byte} (hn : n ≠ Config.marker) :
    (takeElement n s).dec = { s.dec with cnt := n, phase := .sym } := by
  simp [takeElement, h, hn]

theorem takeElement_symbol {s : State} (h : s.dec.phase = .sym) (v : Byte) :
    (takeElement v s).dec = { s.dec with phase := .head } := by
  simp [takeElement, h]

theorem takeElement_count {s : State} (h : s.dec.phase = .count) (c : Byte) : (takeElement c s).dec =
    if c = 0 then { s.dec with phase := .head } else { s.dec with cnt := c, phase := .body } := by
  simp only [takeElement, h]
  split <;> rfl

theorem takeElement_body {s : State} (h : s.dec.phase = .body) (v : Byte) : (takeElement v s).dec =
    { s.dec with cnt := s.dec.cnt - 1, phase := if s.dec.cnt - 1 = 0 then .head else .body } := by
  simp only [takeElement, h]
  rfl

/-- Inside a literal block, symbols up to the number still to come: the last of them, and no other, ends the block. -/
theorem takeElements_body_phase {s : State} (h : s.dec.phase = .body) {ss : List Byte}
    (hlen : ss.length ≤ countOf s.dec.cnt) (hpos : s.dec.cnt ≠ 0) :
    (takeElements ss s).dec.phase = if ss.length = countOf s.dec.cnt then .head else .body := by
  have hcnt : countOf s.dec.cnt ≠ 0 := fun h0 => hpos (BitVec.eq_of_toNat_eq h0)
  induction ss generalizing s with
  | nil => rw [if_neg (by simpa using hcnt.symm)]; exact h
  | cons v ss ih =>
    have hdec := takeElement_body h v
    have hpred : countOf (s.dec.cnt - 1) + 1 = countOf s.dec.cnt := by
      simp only [countOf] at hcnt ⊢; bv_omega
    rw [List.length_cons] at hlen
    rw [takeElements_cons, List.length_cons, ← hpred]
    by_cases hlast : s.dec.cnt - 1 = 0
    · have h0 : countOf (s.dec.cnt - 1) = 0 := by rw [hlast]; rfl
      have hnil : ss = [] := List.length_eq_zero_iff.mp (by omega)
      rw [if_pos hlast] at hdec
      rw [hnil, h0, takeElements_nil, hdec]
      rfl
    · rw [if_neg hlast] at hdec
      have hcnt' : (takeElement v s).dec.cnt = s.dec.cnt - 1 := by rw [hdec]
      rw [ih (by rw [hdec]) (by rw [hcnt']; omega) (by rwa [hcnt'])
        fun h0 => hlast (BitVec.eq_of_toNat_eq (hcnt' ▸ h0)), hcnt']
      simp only [Nat.add_right_cancel_iff]

/-- A literal block's count and symbols after its marker: complete exactly when the symbols are as many as the count
says. -/
theorem takeElements_count_phase {s : State} (h : s.dec.phase = .count) {c : Byte} {ss : List Byte}
    (hlen : ss.length ≤ countOf c) :
    (takeElements (c :: ss) s).dec.phase = if ss.length = countOf c then .head else .body := by
  have hdec := takeElement_count h c
  rw [takeElements_cons]
  by_cases hc : c = 0
  · subst hc
    have hnil : ss = [] := List.length_eq_zero_iff.mp (Nat.le_zero.mp hlen)
    rw [hnil, takeElements_nil, hdec]
    rfl
  · rw [if_neg hc] at hdec
    have hcnt : (takeElement c s).dec.cnt = c := by rw [hdec]
    rw [takeElements_body_phase (by rw [hdec]) (by rwa [hcnt]) (by rwa [hcnt]), hcnt]

/-- A complete token takes DEC from `HEAD` to `HEAD`. -/
theorem takeElements_token_phase {vs rest : List Byte} {i : Instr} (hd : decode vs = .ok (i, rest)) {s : State}
    (h : s.dec.phase = .head) : ∃ t, t.dec.phase = .head ∧ takeElements vs s = takeElements rest t := by
  rcases decode_ok_cases hd with ⟨n, sym, hn, rfl, rfl⟩ | ⟨c, ss, hlen, rfl, rfl⟩
  · refine ⟨takeElement sym (takeElement n s), ?_, rfl⟩
    rw [takeElement_symbol (by rw [takeElement_length h hn])]
  · refine ⟨takeElements (c :: ss) (takeElement Config.marker s), ?_, ?_⟩
    · rw [takeElements_count_phase (by rw [takeElement_marker h]) hlen.le, if_pos hlen]
    · rw [takeElements_cons, ← List.cons_append, takeElements_append]

/-- Rule R39: the phase DEC reaches tells how the elements it took split into tokens. -/
theorem takeElements_phase (vs : List Byte) {s : State} (h : s.dec.phase = .head) :
    (takeElements vs s).dec.phase = streamPhase (tokens vs) := by
  induction vs using stream_induction generalizing s with
  | nil => exact h
  | stuck vs e hne hd =>
    rw [tokens_of_decode_error hne hd]
    rcases decode_error_cases hne hd with ⟨n, hn, rfl, rfl⟩ | ⟨rfl, rfl⟩ | ⟨c, ss, hlen, rfl, rfl⟩
    · exact congrArg DecState.phase (takeElement_length h hn)
    · exact congrArg DecState.phase (takeElement_marker h)
    · rw [takeElements_cons, takeElements_count_phase (by rw [takeElement_marker h]) hlen.le, if_neg hlen.ne]
      rfl
  | token vs i rest hd ih =>
    obtain ⟨t, ht, hrun⟩ := takeElements_token_phase hd h
    rw [hrun, ih ht, tokens_of_decode hd]
    cases tokens rest <;> rfl

/-- Settles O15: the phase is that of the stream's split, and each phase stands for one way to split. -/
theorem decPhaseTellsTruncation : Obligations.DecPhaseTellsTruncation := by
  intro vs s h
  refine ⟨_, execAll_decElems vs s, ?_⟩
  rw [takeElements_phase vs h, wellFormedStream]
  match tokens vs with
  | .ok _ => simp [streamPhase]
  | .error e => cases e <;> simp [streamPhase]

/-! ### Every step keeps the invariants -/

theorem DecState.Inv.of_head {d : DecState} (h : d.phase = .head) : d.Inv :=
  ⟨by simp [h], by simp [h], by simp [h]⟩

/-- Settles O50: after reset ENC is idle and DEC is in `HEAD`. -/
theorem resetMeetsInvariant : Obligations.ResetMeetsInvariant where
  enc := EncState.Idle.inv ⟨rfl, rfl, rfl⟩
  dec := .of_head rfl
  passed_le := Nat.le_refl 0

/-- Rule R38, element by element. -/
theorem takeElement_keeps_inv (v : Byte) {s : State} (h : s.dec.Inv) : (takeElement v s).dec.Inv := by
  match hp : s.dec.phase with
  | .head =>
    by_cases hv : v = Config.marker
    · rw [hv, takeElement_marker hp]
      exact ⟨by simp, by simp, by simp⟩
    · rw [takeElement_length hp hv]
      exact ⟨by simp, fun _ => hv, by simp⟩
  | .sym => rw [takeElement_symbol hp]; exact .of_head rfl
  | .count =>
    rw [takeElement_count hp]
    split
    · exact .of_head rfl
    · rename_i hv
      exact ⟨fun _ => hv, by simp, by simp⟩
  | .body =>
    rw [takeElement_body hp]
    split
    · exact .of_head rfl
    · rename_i hv
      exact ⟨fun _ => hv, by simp, by simp⟩
  | .fault => rw [takeElement_fault hp]; exact h

theorem takeElements_keeps_inv (vs : List Byte) {s : State} (h : s.dec.Inv) : (takeElements vs s).dec.Inv := by
  induction vs generalizing s with
  | nil => exact h
  | cons v vs ih => exact ih (takeElement_keeps_inv v h)

/-- All `DEC.END` can do: complete the call, take the exception, or be ignored (rules R131, R132, R133). -/
theorem execDecEnd_cases (s : State) :
    (s.dec.phase = .head ∧ execDecEnd s = .next (decReinit (s.putDec [.eos]))) ∨
    (s.dec.phase ≠ .head ∧ s.dec.phase ≠ .fault ∧ execDecEnd s = .next (raiseMalformedStream s)) ∨
    (s.dec.phase = .fault ∧ execDecEnd s = .next s) := by
  unfold execDecEnd
  match s.dec.phase with
  | .head => exact .inl ⟨rfl, rfl⟩
  | .sym | .count | .body => exact .inr (.inl ⟨by simp, by simp, rfl⟩)
  | .fault => exact .inr (.inr ⟨rfl, rfl⟩)

/-- Rule R162: the exception freezes a count in the range of the phase it was raised in. -/
theorem raiseMalformedStream_inv {s : State} (h : s.dec.Inv) (hhead : s.dec.phase ≠ .head)
    (hfault : s.dec.phase ≠ .fault) : (raiseMalformedStream s).dec.Inv := by
  refine ⟨by simp, by simp, fun _ => ?_⟩
  rw [raiseMalformedStream_dec]
  match hp : s.dec.phase with
  | .head => exact absurd hp hhead
  | .sym => exact .inl ⟨rfl, h.sym_le hp⟩
  | .count => exact .inr (.inl rfl)
  | .body => exact .inr (.inr ⟨rfl, h.body_pos hp⟩)
  | .fault => exact absurd hp hfault

theorem execDecEnd_keeps_inv {s t : State} (h : execDecEnd s = .next t) (hinv : s.dec.Inv) : t.dec.Inv := by
  rcases execDecEnd_cases s with ⟨-, hs⟩ | ⟨hhead, hfault, hs⟩ | ⟨-, hs⟩ <;>
    obtain rfl := Host.Outcome.next.inj (hs.symm.trans h)
  · exact .of_head rfl
  · exact raiseMalformedStream_inv hinv hhead hfault
  · exact hinv

/-- The last token of a call is appended to `ENC.out`, and nothing else is done. -/
theorem emitLastToken_puts (zeroRun : Bool) (s : State) :
    ∃ out, emitLastToken zeroRun s = .next (s.putEnc (items out)) := by
  have hnone : s.putEnc (items []) = s := by simp [State.putEnc]
  unfold emitLastToken
  by_cases hpv : s.enc.pv = false
  · exact ⟨[], by rw [if_pos hpv, hnone]⟩
  · rw [if_neg hpv]
    split
    · exact ⟨_, rfl⟩
    · split
      · exact ⟨_, emitPendingRun_of_pv (Bool.eq_true_of_not_eq_false hpv)⟩
      · exact ⟨[], by rw [hnone]⟩

/-- `ENC.END` completes from every state. -/
theorem encFinish_completes (zeroRun : Bool) (s : State) :
    ∃ out, encFinish zeroRun s = .next (encReinit ((s.putEnc (items out)).putEnc [.eos])) := by
  obtain ⟨out, hout⟩ := emitLastToken_puts zeroRun s
  exact ⟨out, by rw [encFinish, hout, andThen_next]⟩

/-- An ENC instruction keeps ENC's invariants and takes nothing back from `ENC.out`. -/
theorem exec_enc_keeps_inv {i : Instr} (hi : i.isEnc = true) {s t : State} (h : exec i s = .next t) (hinv : s.enc.Inv) :
    t.enc.Inv ∧ s.encOut.length ≤ t.encOut.length := by
  cases i with
  | encReset =>
    obtain rfl := Host.Outcome.next.inj h
    exact ⟨(encReinit_idle s).inv, Nat.le_refl _⟩
  | encSym b =>
    obtain ⟨e', out, hstep, hexec⟩ := exec_encSym_steps hinv b
    obtain rfl := Host.Outcome.next.inj (hexec.symm.trans h)
    exact ⟨hstep.keeps_inv hinv, by simp⟩
  | encEnd =>
    obtain ⟨out, hout⟩ := encFinish_completes Config.emitZeroRun s
    obtain rfl := Host.Outcome.next.inj (hout.symm.trans h)
    exact ⟨(encReinit_idle _).inv, by simp⟩
  | lit | run | decReset | decElem | decEnd => cases hi

/-- A DEC instruction keeps DEC's invariants. -/
theorem exec_dec_keeps_inv {i : Instr} (hi : i.isEnc = false) {s t : State} (h : exec i s = .next t) (hinv : s.dec.Inv) :
    t.dec.Inv := by
  cases i with
  | lit c syms =>
    obtain rfl := Host.Outcome.next.inj h
    exact takeElements_keeps_inv _ hinv
  | run n sym =>
    obtain rfl := Host.Outcome.next.inj h
    exact takeElements_keeps_inv _ hinv
  | decReset =>
    obtain rfl := Host.Outcome.next.inj h
    exact .of_head rfl
  | decElem v =>
    obtain rfl := Host.Outcome.next.inj h
    exact takeElement_keeps_inv v hinv
  | decEnd => exact execDecEnd_keeps_inv h hinv
  | encReset | encSym | encEnd => cases hi

/-- Every instruction keeps the invariant of the machine: its own unit's by the unit's rules, the other's because it does
not touch it. -/
theorem exec_keeps_inv {i : Instr} {s t : State} (h : exec i s = .next t) (hinv : s.Inv) : t.Inv := by
  match hi : i.isEnc with
  | true =>
    obtain ⟨henc, hout⟩ := exec_enc_keeps_inv hi h hinv.enc
    rw [(exec_localTo_enc hi).frame State.withEnc_self h]
    exact ⟨henc, hinv.dec, hinv.passed_le.trans hout⟩
  | false =>
    have hdec := exec_dec_keeps_inv hi h hinv.dec
    rw [(exec_localTo_dec hi).frame State.withDec_self h]
    exact ⟨hinv.enc, hdec, hinv.passed_le⟩

theorem fetchEncItem_takes (s : State) : ∃ xs, (fetchEncItem s).2 = { s with encIn := xs } := by
  unfold fetchEncItem
  split <;> exact ⟨_, rfl⟩

theorem fetchDecItem_takes (s : State) : ∃ ys, (fetchDecItem s).2 = { s with decIn := ys } := by
  unfold fetchDecItem
  split <;> exact ⟨_, rfl⟩

theorem fetchDecToken_takes (s : State) : ∃ ys, (fetchDecToken s).2 = { s with decIn := ys } := by
  unfold fetchDecToken
  split
  · exact ⟨_, rfl⟩
  · exact fetchDecItem_takes s

/-- All a fetch can do to the state: take from the inputs, or let the connection carry an item. -/
theorem fetch_takes (turn : Turn) (s : State) :
    (∃ xs ys, (fetch turn s).2 = { s with encIn := xs, decIn := ys }) ∨ (fetch turn s).2 = passItem s := by
  cases turn with
  | encReset drops => cases drops <;> exact .inl ⟨_, _, rfl⟩
  | encItem => exact .inl ((fetchEncItem_takes s).imp fun _ h => ⟨s.decIn, h⟩)
  | decReset drops => cases drops <;> exact .inl ⟨_, _, rfl⟩
  | decItem => exact .inl ⟨s.encIn, fetchDecItem_takes s⟩
  | decToken => exact .inl ⟨s.encIn, fetchDecToken_takes s⟩
  | passItem => exact .inr rfl

theorem fetch_keeps_inv (turn : Turn) {s : State} (h : s.Inv) : (fetch turn s).2.Inv := by
  rcases fetch_takes turn s with ⟨xs, ys, hf⟩ | hf
  · rw [hf]
    exact ⟨h.enc, h.dec, h.passed_le⟩
  · rw [hf]
    exact ⟨by rw [passItem_enc]; exact h.enc, by rw [passItem_dec]; exact h.dec,
      by rw [passItem_encOut]; exact passItem_passed_le h.passed_le⟩

/-- Settles O51: taking the turn, the fetch and the instruction each keep the invariant. -/
theorem stepKeepsInvariant : Obligations.StepKeepsInvariant := by
  intro s t hinv hstep
  match hturns : s.turns with
  | [] =>
    rw [step_of_no_turn hturns] at hstep
    obtain rfl := Host.Outcome.next.inj hstep
    exact hinv
  | turn :: rest =>
    have htaken : State.Inv { s with turns := rest } := ⟨hinv.enc, hinv.dec, hinv.passed_le⟩
    have hfetched := fetch_keeps_inv turn htaken
    match hf : fetch turn { s with turns := rest } with
    | (none, u) =>
      rw [hf] at hfetched
      rw [step_of_fetch_none hturns hf] at hstep
      obtain rfl := Host.Outcome.next.inj hstep
      exact hfetched
    | (some i, u) =>
      rw [hf] at hfetched
      rw [step_of_fetch_some hturns hf] at hstep
      exact exec_keeps_inv hstep hfetched

/-! ### Where an instruction stops (rule R22) -/

theorem absorbQueue_pv (s : State) : (absorbQueue s).enc.pv = s.enc.pv := by
  rcases absorbQueue_cases s with ⟨-, h⟩ | ⟨-, h⟩ | ⟨-, h⟩ <;>
    exact congrArg (fun t => t.enc.pv) h

/-- A match step has a pattern to read. -/
theorem encMatchStep_completes {s : State} (hpv : s.enc.pv = true) : ∃ t, encMatchStep s = .next t :=
  ⟨_, splitRun_addRun ((absorbQueue_pv s).trans hpv)⟩

/-- A mismatch step reads the pattern only to end a run. -/
theorem encMismatchStep_completes {s : State} (h : s.enc.pv = false → s.enc.rl = 0) (b : Byte) :
    ∃ t, encMismatchStep b s = .next t := by
  unfold encMismatchStep endRun
  by_cases hr : s.enc.rl = 0
  · exact ⟨_, by rw [if_neg (not_not.mpr hr), andThen_next]⟩
  · have hpv : s.enc.pv = true := Bool.eq_true_of_not_eq_false fun hn => hr (h hn)
    exact ⟨_, by rw [if_pos hr, flushRun_of_pv hpv, andThen_next]⟩

theorem exec_encSym_completes {s : State} (h : s.enc.pv = false → s.enc.rl = 0) (b : Byte) :
    ∃ t, exec (.encSym b) s = .next t := by
  show ∃ t, execEncSym b s = .next t
  unfold execEncSym
  split
  · rename_i hm; exact encMatchStep_completes (matchesPat_iff.mp hm).1
  · exact encMismatchStep_completes h b

/-- A run pending without a pattern: nothing matches, and the run flush reads the pattern. -/
theorem exec_encSym_stops {s : State} (hpv : s.enc.pv = false) (hr : s.enc.rl ≠ 0) (b : Byte) :
    exec (.encSym b) s = .fault .patternReadWhileNone := by
  have hm : s.enc.matchesPat b = false := matchesPat_eq_false_iff.mpr (.inl hpv)
  show execEncSym b s = _
  rw [execEncSym, hm, if_neg Bool.false_ne_true, encMismatchStep, endRun, if_pos hr, flushRun_of_none hpv, andThen_fault]

theorem exec_completes {i : Instr} {s : State} (h : ¬((∃ b, i = .encSym b) ∧ s.enc.pv = false ∧ s.enc.rl ≠ 0)) :
    ∃ t, exec i s = .next t := by
  cases i with
  | lit | run | encReset | decReset | decElem => exact ⟨_, rfl⟩
  | encSym b =>
    refine exec_encSym_completes (fun hpv => ?_) b
    exact by_contra fun hr => h ⟨⟨b, rfl⟩, hpv, hr⟩
  | encEnd => exact (encFinish_completes Config.emitZeroRun s).imp' _ fun _ h => h
  | decEnd => rcases execDecEnd_cases s with ⟨-, h⟩ | ⟨-, -, h⟩ | ⟨-, h⟩ <;> exact ⟨_, h⟩

/-- Settles O53: the one case that stops, and completion in every other. -/
theorem onlyPatternReadWhileNoneFaults : Obligations.OnlyPatternReadWhileNoneFaults := by
  intro i s
  by_cases h : (∃ b, i = .encSym b) ∧ s.enc.pv = false ∧ s.enc.rl ≠ 0
  · obtain ⟨⟨b, rfl⟩, hpv, hr⟩ := h
    have hstop := exec_encSym_stops hpv hr b
    exact ⟨iff_of_true hstop ⟨⟨b, rfl⟩, hpv, hr⟩, by simp [hstop]⟩
  · obtain ⟨t, ht⟩ := exec_completes h
    exact ⟨iff_of_false (by simp [ht]) h, by simp [ht]⟩

/-! ### Unspecified registers: states that differ in them alone -/

theorem EncState.Same.withRun {e f : EncState} (h : e.Same f) {n k : Byte} (hn : n = k) :
    EncState.Same { e with rl := n } { f with rl := k } :=
  ⟨h.pv, h.pat, hn, h.qLen, h.queue⟩

theorem EncState.Same.withPattern {e f : EncState} (h : e.Same f) (b : Byte) :
    EncState.Same { e with pat := b, pv := true } { f with pat := b, pv := true } :=
  ⟨rfl, fun _ => rfl, h.rl, h.qLen, h.queue⟩

theorem EncState.Same.emptied {e f : EncState} (h : e.Same f) :
    EncState.Same { e with qLen := 0 } { f with qLen := 0 } :=
  ⟨h.pv, h.pat, h.rl, rfl, rfl⟩

/-- An append writes at the fill count and so reads nothing above it; past the last entry it leaves an empty queue. -/
theorem EncState.Same.enqueued {e f : EncState} (h : e.Same f) (b : Byte) : EncState.Same
    { e with qMem := queueWrite e.qMem (countOf e.qLen) b, qLen := e.qLen + 1 }
    { f with qMem := queueWrite f.qMem (countOf f.qLen) b, qLen := f.qLen + 1 } := by
  refine ⟨h.pv, h.pat, h.rl, congrArg (· + 1) h.qLen, ?_⟩
  by_cases hq : e.qLen = 255
  · have hq' : f.qLen = 255 := h.qLen ▸ hq
    rw [EncState.queue_eq_nil (by simp [hq]), EncState.queue_eq_nil (by simp [hq'])]
  · have hq' : f.qLen ≠ 255 := h.qLen ▸ hq
    rw [EncState.queue_append hq rfl rfl, h.queue]
    exact (EncState.queue_append hq' rfl rfl).symm

theorem EncState.Idle.same {e f : EncState} (he : e.Idle) (hf : f.Idle) : e.Same f where
  pv := he.pv.trans hf.pv.symm
  pat h := by simp [he.pv] at h
  rl := he.rl.trans hf.rl.symm
  qLen := he.qLen.trans hf.qLen.symm
  queue := by rw [EncState.queue_eq_nil he.qLen, EncState.queue_eq_nil hf.qLen]

/-- The pattern is looked at only where it is valid (rule R92). -/
theorem EncState.Same.matchesPat {e f : EncState} (h : e.Same f) (b : Byte) : e.matchesPat b = f.matchesPat b := by
  match hpv : e.pv with
  | true => simp [EncState.matchesPat, ← h.pv, ← h.pat hpv]
  | false => simp [EncState.matchesPat, ← h.pv, hpv]

/-- In `HEAD` and `COUNT` the phase is all that DEC's registers mean (rule R34). -/
theorem DecState.Same.of_phase {d e : DecState} (hp : d.phase = e.phase) (h : d.phase = .head ∨ d.phase = .count) :
    d.Same e where
  phase := hp
  cnt h' := by rcases h with h | h <;> simp [h] at h'
  fault h' := by rcases h with h | h <;> simp [h] at h'

/-- Outside `FAULT` nothing but phase and count means anything (rule R36). -/
theorem DecState.Same.of_cnt {d e : DecState} (hp : d.phase = e.phase) (hc : d.cnt = e.cnt) (h : d.phase ≠ .fault) :
    d.Same e :=
  ⟨hp, fun _ => hc, fun h' => absurd h' h⟩

/-- A fault freezes a count that was read in the phase it names, or names `COUNT` (rule R162). -/
theorem DecState.Same.faulted {d e : DecState} (h : d.Same e) (hhead : d.phase ≠ .head) (hfault : d.phase ≠ .fault) :
    DecState.Same { d with fphase := d.phase.code, phase := .fault }
      { e with fphase := e.phase.code, phase := .fault } where
  phase := rfl
  cnt h' := by simp at h'
  fault _ := by
    refine ⟨congrArg Phase.code h.phase, fun hcode => h.cnt ?_⟩
    match hp : d.phase with
    | .head => exact absurd hp hhead
    | .sym => exact .inl rfl
    | .count => simp [hp, Phase.code] at hcode
    | .body => exact .inr rfl
    | .fault => exact absurd hp hfault

section Same

variable {s t : State} (h : s.Same t)
include h

theorem State.Same.setEnc {e f : EncState} (he : e.Same f) : (s.setEnc e).Same (t.setEnc f) :=
  ⟨he, h.dec, h.encIn, h.encOut, h.decIn, h.decOut, h.turns, h.passed⟩

theorem State.Same.setDec {d e : DecState} (hd : d.Same e) : (s.setDec d).Same (t.setDec e) :=
  ⟨h.enc, hd, h.encIn, h.encOut, h.decIn, h.decOut, h.turns, h.passed⟩

theorem State.Same.putEnc {xs ys : List Item} (hx : xs = ys) : (s.putEnc xs).Same (t.putEnc ys) :=
  ⟨h.enc, h.dec, h.encIn, congrArg₂ (· ++ ·) h.encOut hx, h.decIn, h.decOut, h.turns, h.passed⟩

theorem State.Same.putDec {xs ys : List Item} (hx : xs = ys) : (s.putDec xs).Same (t.putDec ys) :=
  ⟨h.enc, h.dec, h.encIn, h.encOut, h.decIn, congrArg₂ (· ++ ·) h.decOut hx, h.turns, h.passed⟩

theorem State.Same.encReinit : (encReinit s).Same (encReinit t) :=
  ⟨(encReinit_idle s).same (encReinit_idle t), h.dec, h.encIn, h.encOut, h.decIn, h.decOut, h.turns, h.passed⟩

theorem State.Same.decReinit : (decReinit s).Same (decReinit t) :=
  ⟨h.enc, .of_phase rfl (.inl rfl), h.encIn, h.encOut, h.decIn, h.decOut, h.turns, h.passed⟩

theorem State.Same.addRun (n : Byte) : (addRun n s).Same (addRun n t) :=
  h.setEnc (h.enc.withRun (congrArg (· + n) h.enc.rl))

theorem State.Same.clearQueue : (clearQueue s).Same (clearQueue t) := h.setEnc h.enc.emptied

theorem State.Same.emitLit : (emitLit s).Same (emitLit t) := h.putEnc (by rw [h.enc.qLen, h.enc.queue])

theorem State.Same.flushLit : (flushLit s).Same (flushLit t) := h.emitLit.clearQueue

theorem State.Same.enqueue (b : Byte) : (enqueue b s).Same (enqueue b t) := h.setEnc (h.enc.enqueued b)

theorem State.Same.latchPattern (b : Byte) : (latchPattern b s).Same (latchPattern b t) :=
  h.setEnc (h.enc.withPattern b)

theorem State.Same.absorbQueue : (absorbQueue s).Same (absorbQueue t) := by
  unfold Machine.absorbQueue
  rw [h.enc.qLen]
  split
  · exact h.flushLit
  · split
    · exact h.clearQueue.addRun 1
    · exact h

theorem State.Same.makeRoom : (makeRoom s).Same (makeRoom t) := by
  unfold Machine.makeRoom
  rw [h.enc.qLen]
  split
  · exact h.flushLit
  · exact h

theorem State.Same.takeElement (v : Byte) : (takeElement v s).Same (takeElement v t) := by
  unfold Machine.takeElement
  rw [← h.dec.phase]
  match hp : s.dec.phase with
  | .head =>
    dsimp only
    split
    · exact h.setDec (.of_phase rfl (.inr rfl))
    · exact h.setDec (.of_cnt rfl rfl (by simp))
  | .sym =>
    have hcnt := h.dec.cnt (.inl hp)
    exact (h.putDec (by rw [hcnt])).setDec (.of_phase rfl (.inl rfl))
  | .count =>
    dsimp only
    split
    · exact h.setDec (.of_phase rfl (.inl rfl))
    · exact h.setDec (.of_cnt rfl rfl (by simp))
  | .body =>
    have hcnt := h.dec.cnt (.inr hp)
    refine (h.putDec rfl).setDec (.of_cnt (by rw [hcnt]) (by rw [hcnt]) ?_)
    dsimp only
    split <;> simp
  | .fault => exact h

theorem State.Same.takeElements (vs : List Byte) : (takeElements vs s).Same (takeElements vs t) := by
  induction vs generalizing s t with
  | nil => exact h
  | cons v vs ih => exact ih (h.takeElement v)

theorem State.Same.raiseMalformedStream (hhead : s.dec.phase ≠ .head) (hfault : s.dec.phase ≠ .fault) :
    (raiseMalformedStream s).Same (raiseMalformedStream t) :=
  h.setDec (h.dec.faulted hhead hfault)

end Same

/-! ### No instruction observes an unspecified register -/

/-- `f` does not observe the unspecified registers: where two states differ in these alone, so do its outcomes. -/
def Unobserving (f : State → Result) : Prop := ∀ s t, s.Same t → SameOutcome (f s) (f t)

section Unobserving

variable {f g : State → Result}

theorem Unobserving.next {op : State → State} (h : ∀ s t, s.Same t → (op s).Same (op t)) :
    Unobserving fun s => .next (op s) :=
  fun s t hst => .next (h s t hst)

theorem SameOutcome.andThen {p q : Result} (h : SameOutcome p q) (hg : Unobserving g) :
    SameOutcome (andThen p g) (andThen q g) := by
  cases h with
  | next h => exact hg _ _ h
  | fault r => exact .fault r
  | refused r => exact .refused r

theorem Unobserving.andThen (hf : Unobserving f) (hg : Unobserving g) : Unobserving fun s => andThen (f s) g :=
  fun s t hst => (hf s t hst).andThen hg

/-- A choice whose condition does not depend on an unspecified register. -/
theorem Unobserving.ite {c : State → Prop} [DecidablePred c] (hc : ∀ s t, s.Same t → (c s ↔ c t))
    (hf : Unobserving f) (hg : Unobserving g) : Unobserving fun s => if c s then f s else g s := by
  intro s t hst
  by_cases h : c s
  · simp only [h, (hc s t hst).mp h, if_true]
    exact hf s t hst
  · simp only [h, mt (hc s t hst).mpr h, if_false]
    exact hg s t hst

end Unobserving

/-- The read of the pattern stops where there is none (rule R22), so what it answers is specified. -/
theorem emitPendingRun_unobserving : Unobserving emitPendingRun := by
  intro s t h
  match hpv : s.enc.pv with
  | true =>
    rw [emitPendingRun_of_pv hpv, emitPendingRun_of_pv (h.enc.pv ▸ hpv)]
    exact .next (h.putEnc (by rw [h.enc.rl, h.enc.pat hpv]))
  | false =>
    rw [emitPendingRun, emitPendingRun, readPat_of_none hpv, readPat_of_none (h.enc.pv ▸ hpv)]
    exact .fault _

theorem flushRun_unobserving : Unobserving flushRun :=
  emitPendingRun_unobserving.andThen (.next fun _ _ h => h.setEnc (h.enc.withRun rfl))

theorem splitRun_unobserving : Unobserving splitRun :=
  .ite (fun _ _ h => by rw [h.enc.rl]) flushRun_unobserving (.next fun _ _ h => h)

theorem encMatchStep_unobserving : Unobserving encMatchStep :=
  fun _ _ h => splitRun_unobserving _ _ (h.absorbQueue.addRun 1)

theorem endRun_unobserving : Unobserving endRun :=
  .ite (fun _ _ h => by rw [h.enc.rl]) flushRun_unobserving (.next fun _ _ h => h)

theorem encMismatchStep_unobserving (b : Byte) : Unobserving (encMismatchStep b) :=
  endRun_unobserving.andThen (.next fun _ _ h => (h.makeRoom.enqueue b).latchPattern b)

theorem execEncSym_unobserving (b : Byte) : Unobserving (execEncSym b) :=
  .ite (fun _ _ h => by rw [h.enc.matchesPat b]) encMatchStep_unobserving (encMismatchStep_unobserving b)

theorem emitLastToken_unobserving (zeroRun : Bool) : Unobserving (emitLastToken zeroRun) :=
  .ite (fun _ _ h => by rw [h.enc.pv]) (.next fun _ _ h => h) <|
  .ite (fun _ _ h => by rw [h.enc.qLen]) (.next fun _ _ h => h.emitLit) <|
  .ite (fun _ _ h => by rw [h.enc.rl]) emitPendingRun_unobserving (.next fun _ _ h => h)

theorem encFinish_unobserving (zeroRun : Bool) : Unobserving (encFinish zeroRun) :=
  (emitLastToken_unobserving zeroRun).andThen (.next fun _ _ h => (h.putEnc rfl).encReinit)

theorem execDecEnd_unobserving : Unobserving execDecEnd := by
  intro s t h
  unfold execDecEnd
  rw [← h.dec.phase]
  match hp : s.dec.phase with
  | .head => exact .next (h.putDec rfl).decReinit
  | .sym | .count | .body => exact .next (h.raiseMalformedStream (by simp [hp]) (by simp [hp]))
  | .fault => exact .next h

theorem exec_unobserving (i : Instr) : Unobserving (exec i) := by
  cases i with
  | lit c syms => exact .next fun _ _ h => h.takeElements _
  | run n sym => exact .next fun _ _ h => h.takeElements _
  | encReset => exact .next fun _ _ h => h.encReinit
  | encSym b => exact execEncSym_unobserving b
  | encEnd => exact encFinish_unobserving Config.emitZeroRun
  | decReset => exact .next fun _ _ h => h.decReinit
  | decElem v => exact .next fun _ _ h => h.takeElement v
  | decEnd => exact execDecEnd_unobserving

/-! ### No fetch observes an unspecified register -/

/-- Two fetches that deliver the same and leave states that differ in unspecified registers alone. -/
def SameFetch (a b : Option Instr × State) : Prop := a.1 = b.1 ∧ a.2.Same b.2

section SameFetch

variable {s t : State} (h : s.Same t)
include h

theorem State.Same.withEncIn {xs ys : List Item} (hx : xs = ys) :
    State.Same { s with encIn := xs } { t with encIn := ys } :=
  ⟨h.enc, h.dec, hx, h.encOut, h.decIn, h.decOut, h.turns, h.passed⟩

theorem State.Same.withDecIn {xs ys : List Item} (hx : xs = ys) :
    State.Same { s with decIn := xs } { t with decIn := ys } :=
  ⟨h.enc, h.dec, h.encIn, h.encOut, hx, h.decOut, h.turns, h.passed⟩

theorem State.Same.withTurns (ts : List Turn) : State.Same { s with turns := ts } { t with turns := ts } :=
  ⟨h.enc, h.dec, h.encIn, h.encOut, h.decIn, h.decOut, rfl, h.passed⟩

theorem fetchEncItem_same : SameFetch (fetchEncItem s) (fetchEncItem t) := by
  unfold fetchEncItem
  rw [← h.encIn]
  match s.encIn with
  | [] => exact ⟨rfl, h⟩
  | .elem _ :: _ => exact ⟨rfl, h.withEncIn rfl⟩
  | .eos :: _ => exact ⟨rfl, h.withEncIn rfl⟩

theorem fetchDecItem_same : SameFetch (fetchDecItem s) (fetchDecItem t) := by
  unfold fetchDecItem
  rw [← h.decIn]
  match s.decIn with
  | [] => exact ⟨rfl, h⟩
  | .elem _ :: _ => exact ⟨rfl, h.withDecIn rfl⟩
  | .eos :: _ => exact ⟨rfl, h.withDecIn rfl⟩

theorem fetchDecToken_same : SameFetch (fetchDecToken s) (fetchDecToken t) := by
  unfold fetchDecToken
  rw [← h.decIn]
  match decode (leadingElements s.decIn) with
  | .ok _ => exact ⟨rfl, h.withDecIn rfl⟩
  | .error _ => exact fetchDecItem_same h

theorem State.Same.passItem : (passItem s).Same (passItem t) := by
  rcases passItem_cases s with ⟨hle, hs⟩ | ⟨x, hx, hs⟩
  · rw [hs, passItem_of_all_carried (h.encOut ▸ h.passed ▸ hle)]
    exact h
  · rw [hs, passItem_of_next (h.encOut ▸ h.passed ▸ hx)]
    exact ⟨h.enc, h.dec, h.encIn, h.encOut, congrArg (· ++ [x]) h.decIn, h.decOut, h.turns, congrArg (· + 1) h.passed⟩

theorem fetch_same (turn : Turn) : SameFetch (fetch turn s) (fetch turn t) := by
  cases turn with
  | encReset drops =>
    cases drops with
    | false => exact ⟨rfl, h⟩
    | true => exact ⟨rfl, h.withEncIn (congrArg List.tail h.encIn)⟩
  | encItem => exact fetchEncItem_same h
  | decReset drops =>
    cases drops with
    | false => exact ⟨rfl, h⟩
    | true => exact ⟨rfl, h.withDecIn (congrArg List.tail h.decIn)⟩
  | decItem => exact fetchDecItem_same h
  | decToken => exact fetchDecToken_same h
  | passItem => exact ⟨rfl, h.passItem⟩

end SameFetch

/-- Settles O54: neither the fetch nor the instruction it delivers observes an unspecified register. -/
theorem unspecifiedRegistersAreNeverObserved : Obligations.UnspecifiedRegistersAreNeverObserved := by
  intro s t h
  match hturns : s.turns with
  | [] =>
    rw [step_of_no_turn hturns, step_of_no_turn (h.turns ▸ hturns)]
    exact .next h
  | turn :: rest =>
    have hturns' : t.turns = turn :: rest := h.turns ▸ hturns
    have hfetch := fetch_same (h.withTurns rest) turn
    match hs : fetch turn { s with turns := rest }, ht : fetch turn { t with turns := rest } with
    | (o, u), (o', u') =>
      rw [hs, ht] at hfetch
      obtain ⟨rfl, hu⟩ : o = o' ∧ u.Same u' := hfetch
      cases o with
      | none =>
        rw [step_of_fetch_none hturns hs, step_of_fetch_none hturns' ht]
        exact .next hu
      | some i =>
        rw [step_of_fetch_some hturns hs, step_of_fetch_some hturns' ht]
        exact exec_unobserving i u u' hu

end Sys2Proof.Machine

/-! # Proofs: memory (20_memory.md)

The streams only move forward: a step takes from the front of an input and appends to an output (O56). The two units
chained: how DEC splits what it has taken, what ENC has emitted at every moment, and that every turn keeps the two in
step (O60). ENC's steps commute with a renaming of the symbols (O37). -/

namespace Sys2Proof.Machine

/-! ### What an instruction does to the streams -/

/-- From `s` to `t` the outputs have only grown (rules R25, R53). -/
structure State.Appended (s t : State) : Prop where
  /-- ENC's output. -/
  encOut : s.encOut <+: t.encOut
  /-- DEC's output. -/
  decOut : s.decOut <+: t.decOut

theorem State.Appended.of_eq {s t : State} (henc : t.encOut = s.encOut) (hdec : t.decOut = s.decOut) : s.Appended t :=
  ⟨henc ▸ List.prefix_rfl, hdec ▸ List.prefix_rfl⟩

theorem State.Appended.refl (s : State) : s.Appended s := .of_eq rfl rfl

theorem State.Appended.trans {s t u : State} (h : s.Appended t) (h' : t.Appended u) : s.Appended u :=
  ⟨h.encOut.trans h'.encOut, h.decOut.trans h'.decOut⟩

theorem State.appended_setEnc (s : State) (e : EncState) : s.Appended (s.setEnc e) := .of_eq rfl rfl

theorem State.appended_setDec (s : State) (d : DecState) : s.Appended (s.setDec d) := .of_eq rfl rfl

theorem State.appended_putEnc (s : State) (xs : List Item) : s.Appended (s.putEnc xs) :=
  ⟨List.prefix_append _ _, List.prefix_rfl⟩

theorem State.appended_putDec (s : State) (xs : List Item) : s.Appended (s.putDec xs) :=
  ⟨List.prefix_rfl, List.prefix_append _ _⟩

theorem appended_encReinit (s : State) : s.Appended (encReinit s) := .of_eq rfl rfl

theorem appended_decReinit (s : State) : s.Appended (decReinit s) := .of_eq rfl rfl

theorem appended_flushLit (s : State) : s.Appended (flushLit s) :=
  (s.appended_putEnc _).trans (State.appended_setEnc _ _)

theorem appended_absorbQueue (s : State) : s.Appended (absorbQueue s) := by
  unfold absorbQueue
  split
  · exact appended_flushLit s
  · split
    · exact (s.appended_setEnc _).trans (State.appended_setEnc _ _)
    · exact .refl s

theorem appended_makeRoom (s : State) : s.Appended (makeRoom s) := by
  unfold makeRoom
  split
  · exact appended_flushLit s
  · exact .refl s

theorem appended_takeElement (v : Byte) (s : State) : s.Appended (takeElement v s) := by
  unfold takeElement
  match s.dec.phase with
  | .head | .count =>
    dsimp only
    split <;> exact s.appended_setDec _
  | .sym | .body => exact (s.appended_putDec _).trans (State.appended_setDec _ _)
  | .fault => exact .refl s

theorem appended_takeElements (vs : List Byte) (s : State) : s.Appended (takeElements vs s) := by
  induction vs generalizing s with
  | nil => exact .refl s
  | cons v vs ih => exact (appended_takeElement v s).trans (ih (takeElement v s))

/-- Where `f` goes on, it has only appended to the outputs. -/
def Appends (f : State → Result) : Prop := ∀ s t, f s = .next t → s.Appended t

section Appends

variable {f g : State → Result}

theorem Appends.next {op : State → State} (h : ∀ s : State, s.Appended (op s)) : Appends fun s => .next (op s) := by
  intro s t hst
  obtain rfl := Host.Outcome.next.inj hst
  exact h s

theorem Appends.fault (r : Fault) : Appends fun _ => .fault r := fun _ _ h => by cases h

theorem Appends.andThen (hf : Appends f) (hg : Appends g) : Appends fun s => andThen (f s) g := by
  intro s u h
  obtain ⟨t, hst, htu⟩ := andThen_eq_next.mp h
  exact (hf s t hst).trans (hg t u htu)

theorem Appends.ite {c : State → Prop} [DecidablePred c] (hf : Appends f) (hg : Appends g) :
    Appends fun s => if c s then f s else g s := by
  intro s t h
  dsimp only at h
  split at h
  · exact hf s t h
  · exact hg s t h

end Appends

theorem emitPendingRun_appends : Appends emitPendingRun :=
  .ite (c := fun s => s.enc.pv = true) (.next fun s => s.appended_putEnc _) (.fault _)

theorem flushRun_appends : Appends flushRun := emitPendingRun_appends.andThen (.next fun s => s.appended_setEnc _)

theorem encMatchStep_appends : Appends encMatchStep := by
  have hsplit : Appends splitRun := .ite flushRun_appends (.next .refl)
  intro s t h
  exact ((appended_absorbQueue s).trans (State.appended_setEnc _ _)).trans (hsplit _ t h)

theorem encMismatchStep_appends (b : Byte) : Appends (encMismatchStep b) := by
  have hend : Appends endRun := .ite flushRun_appends (.next .refl)
  exact hend.andThen (.next fun s =>
    ((appended_makeRoom s).trans (State.appended_setEnc _ _)).trans (State.appended_setEnc _ _))

theorem encFinish_appends (zeroRun : Bool) : Appends (encFinish zeroRun) := by
  have hlast : Appends (emitLastToken zeroRun) :=
    .ite (.next .refl) (.ite (.next fun s => s.appended_putEnc _) (.ite emitPendingRun_appends (.next .refl)))
  exact hlast.andThen (.next fun s => (s.appended_putEnc _).trans (appended_encReinit _))

theorem execDecEnd_appends : Appends execDecEnd := by
  intro s t h
  rcases execDecEnd_cases s with ⟨-, hs⟩ | ⟨-, -, hs⟩ | ⟨-, hs⟩ <;>
    obtain rfl := Host.Outcome.next.inj (hs.symm.trans h)
  · exact (s.appended_putDec _).trans (appended_decReinit _)
  · exact s.appended_setDec _
  · exact .refl s

/-- No instruction takes anything back from an output. -/
theorem exec_appends (i : Instr) : Appends (exec i) := by
  cases i with
  | lit c syms => exact .next (appended_takeElements _)
  | run n sym => exact .next (appended_takeElements _)
  | encReset => exact .next appended_encReinit
  | encSym b => exact .ite (c := fun s => s.enc.matchesPat b = true) encMatchStep_appends (encMismatchStep_appends b)
  | encEnd => exact encFinish_appends Config.emitZeroRun
  | decReset => exact .next appended_decReinit
  | decElem v => exact .next (appended_takeElement v)
  | decEnd => exact execDecEnd_appends

/-- No instruction touches an input, the turns or the connection. -/
theorem exec_keeps_inputs {i : Instr} {s t : State} (h : exec i s = .next t) :
    t.encIn = s.encIn ∧ t.decIn = s.decIn ∧ t.turns = s.turns ∧ t.passed = s.passed := by
  match hi : i.isEnc with
  | true =>
    rw [(exec_localTo_enc hi).frame State.withEnc_self h]
    exact ⟨rfl, rfl, rfl, rfl⟩
  | false =>
    rw [(exec_localTo_dec hi).frame State.withDec_self h]
    exact ⟨rfl, rfl, rfl, rfl⟩

/-! ### What a fetch takes from the inputs -/

/-- What a fetch other than the connection's does to the state: it takes items from the front of the inputs. -/
def State.TakesFrom (s t : State) : Prop :=
  ∃ xs ys, xs <:+ s.encIn ∧ ys <:+ s.decIn ∧ t = { s with encIn := xs, decIn := ys }

theorem State.TakesFrom.encIn {s : State} {xs : List Item} (h : xs <:+ s.encIn) : s.TakesFrom { s with encIn := xs } :=
  ⟨xs, s.decIn, h, List.suffix_rfl, rfl⟩

theorem State.TakesFrom.decIn {s : State} {ys : List Item} (h : ys <:+ s.decIn) : s.TakesFrom { s with decIn := ys } :=
  ⟨s.encIn, ys, List.suffix_rfl, h, rfl⟩

theorem State.TakesFrom.nothing (s : State) : s.TakesFrom s := .encIn List.suffix_rfl

theorem fetchEncItem_takesFrom (s : State) : s.TakesFrom (fetchEncItem s).2 := by
  match hin : s.encIn with
  | [] => rw [fetchEncItem_of_nil hin]; exact .nothing s
  | .elem b :: r => rw [fetchEncItem_of_elem hin]; exact .encIn (hin ▸ List.suffix_cons _ _)
  | .eos :: r => rw [fetchEncItem_of_eos hin]; exact .encIn (hin ▸ List.suffix_cons _ _)

theorem fetchDecItem_takesFrom (s : State) : s.TakesFrom (fetchDecItem s).2 := by
  match hin : s.decIn with
  | [] => rw [fetchDecItem_of_nil hin]; exact .nothing s
  | .elem v :: r => rw [fetchDecItem_of_elem hin]; exact .decIn (hin ▸ List.suffix_cons _ _)
  | .eos :: r => rw [fetchDecItem_of_eos hin]; exact .decIn (hin ▸ List.suffix_cons _ _)

theorem fetchDecToken_takesFrom (s : State) : s.TakesFrom (fetchDecToken s).2 := by
  match hd : decode (leadingElements s.decIn) with
  | .ok (i, after) => rw [fetchDecToken_of_ok hd]; exact .decIn (List.drop_suffix _ _)
  | .error e => rw [fetchDecToken_of_error hd]; exact fetchDecItem_takesFrom s

theorem fetch_takesFrom {turn : Turn} (h : turn ≠ .passItem) (s : State) : s.TakesFrom (fetch turn s).2 := by
  cases turn with
  | encReset drops =>
    cases drops with
    | false => exact .nothing s
    | true => exact .encIn (List.tail_suffix _)
  | encItem => exact fetchEncItem_takesFrom s
  | decReset drops =>
    cases drops with
    | false => exact .nothing s
    | true => exact .decIn (List.tail_suffix _)
  | decItem => exact fetchDecItem_takesFrom s
  | decToken => exact fetchDecToken_takesFrom s
  | passItem => exact absurd rfl h

/-- A step is its fetch, and after it nothing or an instruction, which only appends. -/
theorem step_after_fetch {s t : State} {turn : Turn} {rest : List Turn} (hturns : s.turns = turn :: rest)
    (h : step s = .next t) {u : State} (hu : (fetch turn { s with turns := rest }).2 = u) :
    u.Appended t ∧ t.encIn = u.encIn ∧ t.decIn = u.decIn ∧ t.turns = u.turns ∧ t.passed = u.passed := by
  match hf : fetch turn { s with turns := rest } with
  | (none, v) =>
    obtain rfl : v = u := by rw [← hu, hf]
    rw [step_of_fetch_none hturns hf] at h
    obtain rfl := Host.Outcome.next.inj h
    exact ⟨.refl v, rfl, rfl, rfl, rfl⟩
  | (some i, v) =>
    obtain rfl : v = u := by rw [← hu, hf]
    rw [step_of_fetch_some hturns hf] at h
    exact ⟨exec_appends i v t h, exec_keeps_inputs h⟩

/-- Settles O56: a turn of the connection carries an item or does nothing; every other turn takes from the front of the
inputs, and what it then runs only appends. -/
theorem streamsOnlyMoveForward : Obligations.StreamsOnlyMoveForward := by
  intro s t h
  match hturns : s.turns with
  | [] =>
    rw [step_of_no_turn hturns] at h
    obtain rfl := Host.Outcome.next.inj h
    exact ⟨List.prefix_rfl, List.prefix_rfl, List.suffix_rfl, hturns, .inl ⟨List.suffix_rfl, rfl⟩⟩
  | turn :: rest =>
    by_cases hpass : turn = .passItem
    · subst hpass
      rw [step_passItem hturns] at h
      obtain rfl := Host.Outcome.next.inj h
      rcases passItem_cases { s with turns := rest } with ⟨-, hnone⟩ | ⟨x, hx, hnext⟩
      · rw [hnone]
        exact ⟨List.prefix_rfl, List.prefix_rfl, List.suffix_rfl, rfl, .inl ⟨List.suffix_rfl, rfl⟩⟩
      · rw [hnext]
        exact ⟨List.prefix_rfl, List.prefix_rfl, List.suffix_rfl, rfl, .inr ⟨x, rest, rfl, hx, rfl⟩⟩
    · obtain ⟨xs, ys, hxs, hys, hfetch⟩ := fetch_takesFrom hpass { s with turns := rest }
      obtain ⟨hout, hencIn, hdecIn, hrest, hpassed⟩ := step_after_fetch hturns h hfetch
      exact ⟨hout.encOut, hout.decOut, hencIn ▸ hxs, hrest, .inl ⟨hdecIn ▸ hys, hpassed⟩⟩

end Sys2Proof.Machine

namespace Sys2Proof

/-! ### Streams: complete tokens and an unfinished one -/

/-- The elements before what a decoded token leaves are the token's own. -/
theorem decode_ok_elementsOf {vs rest : List Byte} {i : Instr} (h : decode vs = .ok (i, rest)) :
    vs = elementsOf i ++ rest := by
  rcases decode_ok_cases h with ⟨n, s, -, rfl, rfl⟩ | ⟨c, ss, -, rfl, rfl⟩ <;> rfl

/-- A LIT with as many symbols as its count says decodes to itself. -/
theorem decode_litElements {c : Byte} {ss : List Byte} (h : ss.length = countOf c) :
    decode (Machine.litElements c ss) = .ok (.lit c ss, []) := by
  refine (decode_marker c ss).trans ?_
  rw [if_pos h.ge, ← h, List.take_length, List.drop_length]

/-- A decoded token's own elements decode to it. -/
theorem decode_elementsOf {vs rest : List Byte} {i : Instr} (h : decode vs = .ok (i, rest)) :
    decode (elementsOf i) = .ok (i, []) := by
  rcases decode_ok_cases h with ⟨n, s, hn, rfl, -⟩ | ⟨c, ss, hlen, rfl, -⟩
  · exact decode_run hn s []
  · exact decode_litElements hlen

/-- What follows a well-formed front of a well-formed stream is well-formed. -/
theorem decodeStream_append_right {p r ps ds : List Byte} (hp : decodeStream p = some ps)
    (h : decodeStream (p ++ r) = some ds) : ∃ rs, decodeStream r = some rs ∧ ds = ps ++ rs := by
  induction p using stream_induction generalizing ps ds with
  | nil => cases hp; exact ⟨ds, h, rfl⟩
  | stuck vs e hne hd => rw [decodeStream_of_decode_error hne hd] at hp; cases hp
  | token vs i rest hd ih =>
    rw [decodeStream_of_decode hd, Option.map_eq_some_iff] at hp
    rw [decodeStream_of_decode (decode_append hd r), Option.map_eq_some_iff] at h
    obtain ⟨ps', hps, rfl⟩ := hp
    obtain ⟨ds', hds, rfl⟩ := h
    obtain ⟨rs, hrs, rfl⟩ := ih hps hds
    exact ⟨rs, hrs, (List.append_assoc ..).symm⟩

/-- The symbols of an unfinished block begin what the block covers once it is complete. -/
theorem drop_two_isPrefix_of_completed {q x qs : List Byte} {e : DecodeError} (hq : q ≠ []) (hd : decode q = .error e)
    (h : decodeStream (q ++ x) = some qs) : q.drop 2 <+: qs := by
  rcases decode_error_cases hq hd with ⟨n, -, rfl, -⟩ | ⟨rfl, -⟩ | ⟨c, ss, hlen, rfl, -⟩
  · exact List.nil_prefix
  · exact List.nil_prefix
  · match hd' : decode (Config.marker :: c :: ss ++ x) with
    | .error e => rw [decodeStream_of_decode_error (by simp) hd'] at h; cases h
    | .ok (i, rest) =>
      rw [decodeStream_of_decode hd', Option.map_eq_some_iff] at h
      obtain ⟨rs, -, rfl⟩ := h
      rcases decode_ok_cases hd' with ⟨n, s, hn, -, hvs⟩ | ⟨c', ss', hlen', rfl, hvs⟩
      · exact absurd (List.cons.inj hvs).1.symm hn
      · obtain ⟨rfl, hbody⟩ : c = c' ∧ ss ++ x = ss' ++ rest := by simpa using hvs
        have hss : ss <+: ss' :=
          List.prefix_of_prefix_length_le (hbody ▸ List.prefix_append ss x) (List.prefix_append ss' rest) (by omega)
        exact hss.trans (List.prefix_append ss' rs)

/-- Elements `v` split into complete tokens `p`, covering `ps`, and what there is of one more token, `q`. -/
structure Splits (v p q ps : List Byte) : Prop where
  /-- Nothing else is there. -/
  eq_append : v = p ++ q
  /-- The complete tokens. -/
  complete : decodeStream p = some ps
  /-- The unfinished one, if any. -/
  incomplete : q ≠ [] → ∃ e, decode q = .error e

/-- Any elements split so. -/
theorem exists_splits (v : List Byte) : ∃ p q ps, Splits v p q ps := by
  induction v using stream_induction with
  | nil => exact ⟨[], [], [], rfl, rfl, fun h => absurd rfl h⟩
  | stuck vs e hne hd => exact ⟨[], vs, [], rfl, rfl, fun _ => ⟨e, hd⟩⟩
  | token vs i rest hd ih =>
    obtain ⟨p, q, ps, hsplit⟩ := ih
    refine ⟨elementsOf i ++ p, q, sem i ++ ps, ?_, ?_, hsplit.incomplete⟩
    · rw [List.append_assoc, ← hsplit.eq_append]
      exact decode_ok_elementsOf hd
    · rw [decodeStream_of_decode (decode_append (decode_elementsOf hd) p), List.nil_append, hsplit.complete]
      rfl

end Sys2Proof

namespace Sys2Proof.Machine

/-! ### What DEC appends for the elements it takes -/

theorem takeElement_head_decOut {s : State} (h : s.dec.phase = .head) (v : Byte) :
    (takeElement v s).decOut = s.decOut := by
  simp only [takeElement, h]
  split <;> rfl

theorem takeElement_symbol_decOut {s : State} (h : s.dec.phase = .sym) (v : Byte) :
    (takeElement v s).decOut = s.decOut ++ items (runSymbols s.dec.cnt v) := by
  simp [takeElement, h]

theorem takeElement_count_decOut {s : State} (h : s.dec.phase = .count) (c : Byte) :
    (takeElement c s).decOut = s.decOut := by
  simp only [takeElement, h]
  split <;> rfl

theorem takeElement_body_decOut {s : State} (h : s.dec.phase = .body) (v : Byte) :
    (takeElement v s).decOut = s.decOut ++ items [v] := by
  simp [takeElement, h]

/-- Inside a literal block, every symbol up to the number still to come is appended. -/
theorem takeElements_body_decOut {s : State} (h : s.dec.phase = .body) (hpos : s.dec.cnt ≠ 0) {ss : List Byte}
    (hlen : ss.length ≤ countOf s.dec.cnt) : (takeElements ss s).decOut = s.decOut ++ items ss := by
  induction ss using List.reverseRecOn with
  | nil => simp
  | append_singleton ss v ih =>
    have hlt : ss.length < countOf s.dec.cnt := by simpa using hlen
    have hbody : (takeElements ss s).dec.phase = .body := by
      rw [takeElements_body_phase h hlt.le hpos, if_neg hlt.ne]
    rw [takeElements_append, takeElements_cons, takeElements_nil, takeElement_body_decOut hbody, ih hlt.le]
    simp

theorem takeElements_count_decOut {s : State} (h : s.dec.phase = .count) {c : Byte} {ss : List Byte}
    (hlen : ss.length ≤ countOf c) : (takeElements (c :: ss) s).decOut = s.decOut ++ items ss := by
  have hdec := takeElement_count h c
  rw [takeElements_cons, ← takeElement_count_decOut h c]
  by_cases hc : c = 0
  · subst hc
    have hnil : ss = [] := List.length_eq_zero_iff.mp (Nat.le_zero.mp hlen)
    simp [hnil]
  · rw [if_neg hc] at hdec
    have hcnt : (takeElement c s).dec.cnt = c := by rw [hdec]
    exact takeElements_body_decOut (by rw [hdec]) (by rwa [hcnt]) (by rwa [hcnt])

/-- From `HEAD`, a literal block, complete or not, appends the symbols that are there. -/
theorem takeElements_lit_decOut {s : State} (h : s.dec.phase = .head) {c : Byte} {ss : List Byte}
    (hlen : ss.length ≤ countOf c) : (takeElements (litElements c ss) s).decOut = s.decOut ++ items ss := by
  rw [litElements, takeElements_cons, takeElements_count_decOut (by rw [takeElement_marker h]) hlen,
    takeElement_head_decOut h]

/-- From `HEAD`, a complete token appends what it decodes to and ends in `HEAD` (rule R134). -/
theorem takeElements_elementsOf {vs rest : List Byte} {i : Instr} (hd : decode vs = .ok (i, rest)) {s : State}
    (h : s.dec.phase = .head) : (takeElements (elementsOf i) s).dec.phase = .head ∧
      (takeElements (elementsOf i) s).decOut = s.decOut ++ items (sem i) := by
  constructor
  · rw [takeElements_phase _ h, tokens_of_decode (decode_elementsOf hd)]
    rfl
  · rcases decode_ok_cases hd with ⟨n, sym, hn, rfl, -⟩ | ⟨c, ss, hlen, rfl, -⟩
    · have hdec := takeElement_length h hn
      show (takeElement sym (takeElement n s)).decOut = _
      rw [takeElement_symbol_decOut (by rw [hdec]), takeElement_head_decOut h, hdec]
      rfl
    · exact takeElements_lit_decOut h hlen.le

/-- From `HEAD`, a well-formed stream appends what it decodes to and ends in `HEAD` (rule R135). -/
theorem takeElements_wellFormed {p ps : List Byte} (hp : decodeStream p = some ps) {s : State}
    (h : s.dec.phase = .head) :
    (takeElements p s).dec.phase = .head ∧ (takeElements p s).decOut = s.decOut ++ items ps := by
  induction p using stream_induction generalizing ps s with
  | nil => cases hp; exact ⟨h, by simp⟩
  | stuck vs e hne hd => rw [decodeStream_of_decode_error hne hd] at hp; cases hp
  | token vs i rest hd ih =>
    rw [decodeStream_of_decode hd, Option.map_eq_some_iff] at hp
    obtain ⟨ps', hrest, rfl⟩ := hp
    obtain ⟨hphase, hout⟩ := takeElements_elementsOf hd h
    rw [decode_ok_elementsOf hd, takeElements_append, items_append, ← List.append_assoc, ← hout]
    exact ih hrest hphase

/-- From `HEAD`, part of a token leaves `HEAD` and appends the symbols of a block that did arrive (rule R162). -/
theorem takeElements_incomplete {q : List Byte} {e : DecodeError} (hq : q ≠ []) (hd : decode q = .error e) {s : State}
    (h : s.dec.phase = .head) :
    (takeElements q s).dec.phase ≠ .head ∧ (takeElements q s).decOut = s.decOut ++ items (q.drop 2) := by
  constructor
  · rw [takeElements_phase q h, tokens_of_decode_error hq hd]
    cases e <;> simp [streamPhase]
  · rcases decode_error_cases hq hd with ⟨n, -, rfl, -⟩ | ⟨rfl, -⟩ | ⟨c, ss, hlen, rfl, -⟩
    · simp [takeElement_head_decOut h]
    · simp [takeElement_head_decOut h]
    · exact takeElements_lit_decOut h hlen.le

/-- How DEC stands after elements that split into complete tokens and an unfinished one. -/
theorem takeElements_of_splits {v p q ps : List Byte} (hv : Splits v p q ps) {s : State} (h : s.dec.phase = .head) :
    (q = [] ↔ (takeElements v s).dec.phase = .head) ∧
      (takeElements v s).decOut = s.decOut ++ items (ps ++ q.drop 2) := by
  obtain ⟨hphase, hout⟩ := takeElements_wellFormed hv.complete h
  rw [hv.eq_append, takeElements_append, items_append, ← List.append_assoc, ← hout]
  by_cases hq : q = []
  · subst hq
    exact ⟨iff_of_true rfl hphase, by simp⟩
  · obtain ⟨e, hd⟩ := hv.incomplete hq
    obtain ⟨hne, hout'⟩ := takeElements_incomplete hq hd hphase
    exact ⟨iff_of_false hq hne, hout'⟩

/-- A token that has been decoded is executed as its elements in order. -/
theorem exec_decoded {vs rest : List Byte} {i : Instr} (hd : decode vs = .ok (i, rest)) (s : State) :
    exec i s = .next (takeElements (elementsOf i) s) := by
  rcases decode_ok_cases hd with ⟨n, sym, -, rfl, -⟩ | ⟨c, ss, -, rfl, -⟩ <;> rfl

/-- A turn of ENC with a symbol to take. -/
theorem step_encItem_elem {s : State} {rest : List Turn} (h : s.turns = .encItem :: rest) {b : Byte} {r : List Item}
    (hin : s.encIn = .elem b :: r) : step s = exec (.encSym b) { s with turns := rest, encIn := r } :=
  step_of_fetch_some h (fetchEncItem_of_elem hin)

/-- A turn of ENC with the end mark to take. -/
theorem step_encItem_eos {s : State} {rest : List Turn} (h : s.turns = .encItem :: rest) {r : List Item}
    (hin : s.encIn = .eos :: r) : step s = exec .encEnd { s with turns := rest, encIn := r } :=
  step_of_fetch_some h (fetchEncItem_of_eos hin)

/-! ### The last token of a call -/

/-- The elements of the last token of a call, by the cases of P110. -/
def EncState.lastToken (zeroRun : Bool) (e : EncState) : List Byte :=
  if e.pv = false then []
  else if e.qLen ≠ 0 then litElements e.qLen e.queue
  else if e.rl ≠ 0 ∨ zeroRun = true then runElements e.rl e.pat
  else []

theorem emitLastToken_eq (zeroRun : Bool) (s : State) :
    emitLastToken zeroRun s = .next (s.putEnc (items (s.enc.lastToken zeroRun))) := by
  have hnone : s.putEnc (items []) = s := by simp [State.putEnc]
  unfold emitLastToken EncState.lastToken
  by_cases hpv : s.enc.pv = false
  · rw [if_pos hpv, if_pos hpv, hnone]
  · rw [if_neg hpv, if_neg hpv]
    split
    · rfl
    · split
      · exact emitPendingRun_of_pv (Bool.eq_true_of_not_eq_false hpv)
      · rw [hnone]

/-- `ENC.END` as one update of the state: the last token, the end mark, the reset values (rule R114). -/
theorem encFinish_eq (zeroRun : Bool) (s : State) : encFinish zeroRun s =
    .next (encReinit (s.putEnc (items (s.enc.lastToken zeroRun) ++ [.eos]))) := by
  rw [encFinish, emitLastToken_eq, andThen_next]
  simp [State.putEnc]

/-- The count of a pending run is never the marker (rule R31). -/
theorem EncState.Inv.rl_ne_marker {e : EncState} (h : e.Inv) : e.rl ≠ Config.marker := by
  have hle := h.rl_le
  simp only [Config.marker]
  bv_omega

/-- The last token covers exactly what is pending. -/
theorem EncState.Inv.decodeStream_lastToken {e : EncState} (h : e.Inv) (zeroRun : Bool) :
    decodeStream (e.lastToken zeroRun) = some e.pending := by
  unfold EncState.lastToken
  split
  · rename_i hpv
    obtain ⟨hr, hq⟩ := h.none_idle hpv
    rw [EncState.Idle.pending ⟨hpv, hr, hq⟩, decodeStream_nil]
  · split
    · rename_i hq
      rw [EncState.pending_of_no_run (h.rl_of_queue hq), decodeStream_litElements e.queue_length]
    · rename_i hq
      rw [EncState.pending_of_empty_queue (not_not.mp hq)]
      split
      · exact decodeStream_runElements h.rl_ne_marker e.pat
      · rename_i hrun
        rw [not_not.mp (not_or.mp hrun).1]
        rfl

/-! ### The two units chained: what has been emitted and taken -/

/-- An end mark in a stream is not an element, so it is found at one place only. -/
theorem items_append_eos_inj {v w : List Byte} {xs ys : List Item}
    (h : items v ++ .eos :: xs = items w ++ .eos :: ys) : v = w ∧ xs = ys := by
  induction v generalizing w with
  | nil =>
    cases w with
    | nil => exact ⟨rfl, by simpa using h⟩
    | cons b w => simp at h
  | cons a v ih =>
    cases w with
    | nil => simp at h
    | cons b w =>
      obtain ⟨rfl, htail⟩ : a = b ∧ items v ++ .eos :: xs = items w ++ .eos :: ys := by simpa using h
      exact (ih htail).imp_left (congrArg (a :: ·))

theorem eos_notMem_items (w : List Byte) : Item.eos ∉ items w := by simp [items]

/-- How ENC stands in the call on `bs` with registers `e`, the input `xs` to come and `ys` emitted: inside the call, what
is emitted, what is pending and what is to come make up the input (rule R30); after it, the whole input is emitted. -/
inductive Emitted (bs : List Byte) (e : EncState) (xs ys : List Item) : Prop where
  /-- The end mark is still to come. -/
  | inCall (out done rest : List Byte) (input : xs = items rest ++ [.eos]) (output : ys = items out) (inv : e.Inv)
      (decodes : decodeStream out = some done) (covers : done ++ e.pending ++ rest = bs)
  /-- The end mark has been taken and passed on. -/
  | ended (out : List Byte) (input : xs = []) (output : ys = items out ++ [.eos]) (idle : e.Idle)
      (decodes : decodeStream out = some bs)

/-- At every moment the emitted elements are well-formed and cover the input but for what is pending and to come. -/
theorem Emitted.covers {bs : List Byte} {e : EncState} {xs ys : List Item} (h : Emitted bs e xs ys) :
    ∃ done, decodeStream (elements ys) = some done ∧ bs = done ++ e.pending ++ elements xs := by
  cases h with
  | inCall out done rest input output inv decodes covers =>
    exact ⟨done, by rw [output, elements_items, decodes], by simp [input, ← covers]⟩
  | ended out input output idle decodes =>
    exact ⟨bs, by simp [output, decodes], by simp [input, idle.pending]⟩

/-- After an end mark ENC has emitted nothing, and what stands before it covers the input. -/
theorem Emitted.of_eos {bs w : List Byte} {e : EncState} {xs zs : List Item}
    (h : Emitted bs e xs (items w ++ .eos :: zs)) : zs = [] ∧ xs = [] ∧ e.Idle ∧ decodeStream w = some bs := by
  cases h with
  | inCall out done rest input output inv decodes covers =>
    exact absurd (by rw [← output]; simp) (eos_notMem_items out)
  | ended out input output idle decodes =>
    obtain ⟨rfl, hzs⟩ := items_append_eos_inj output
    exact ⟨hzs, input, idle, decodes⟩

/-- ENC's invariants hold inside the call and after it. -/
theorem Emitted.inv {bs : List Byte} {e : EncState} {xs ys : List Item} (h : Emitted bs e xs ys) : e.Inv := by
  cases h with
  | inCall out done rest input output inv => exact inv
  | ended out input output idle => exact idle.inv

/-- ENC takes a symbol of the call. -/
theorem Emitted.takeSym {bs : List Byte} {e e' : EncState} {b : Byte} {xs ys : List Item} {new : List Byte}
    (h : Emitted bs e (.elem b :: xs) ys) (hstep : EncSymStep b e e' new) :
    Emitted bs e' xs (ys ++ items new) := by
  cases h with
  | inCall out done rest input output inv decodes covers =>
    cases rest with
    | nil => simp at input
    | cons a rest =>
      obtain ⟨rfl, rfl⟩ : b = a ∧ xs = items rest ++ [.eos] := by simpa using input
      obtain ⟨d, hd, hcov⟩ := hstep.covers inv
      refine .inCall (out ++ new) (done ++ d) rest rfl (by rw [output, items_append]) (hstep.keeps_inv inv)
        (decodeStream_append decodes hd) ?_
      rw [List.append_assoc done, hcov, ← covers]
      simp
  | ended out input output idle decodes => cases input

/-- ENC takes the end mark of the call. -/
theorem Emitted.takeEnd {bs : List Byte} {e e' : EncState} {xs ys : List Item} (zeroRun : Bool)
    (h : Emitted bs e (.eos :: xs) ys) (hidle : e'.Idle) :
    Emitted bs e' xs (ys ++ (items (e.lastToken zeroRun) ++ [.eos])) := by
  cases h with
  | inCall out done rest input output inv decodes covers =>
    cases rest with
    | nil =>
      refine .ended (out ++ e.lastToken zeroRun) (by simpa using input) (by simp [output]) hidle ?_
      rw [decodeStream_append decodes (inv.decodeStream_lastToken zeroRun), ← covers, List.append_nil]
    | cons a rest => simp at input
  | ended out input output idle decodes => cases input

/-- How DEC stands after taking `taken` from the state `s`: with registers `d`, output `out` and draw counter `draws`. -/
inductive Took (s : State) (d : DecState) (out : List Item) (draws : Nat) (taken : List Item) : Prop where
  /-- Elements alone. -/
  | inCall (vs : List Byte) (taken_eq : taken = items vs) (dec : d = (takeElements vs s).dec)
      (decOut : out = (takeElements vs s).decOut) (decDraws : draws = (takeElements vs s).decDraws)
  /-- Elements up to the end of a token, and the end mark. -/
  | ended (vs : List Byte) (taken_eq : taken = items vs ++ [.eos]) (head : (takeElements vs s).dec.phase = .head)
      (idle : d.Idle) (decOut : out = (takeElements vs s).decOut ++ [.eos])

/-- What DEC has taken, split into tokens, tells its phase and its output. -/
theorem Took.splits {s : State} {d : DecState} {out taken : List Item} {draws : Nat} (h : Took s d out draws taken)
    (hs : s.dec.phase = .head) : ∃ p q ps, Splits (elements taken) p q ps ∧ (q = [] ↔ d.phase = .head) ∧
      out = s.decOut ++ items (ps ++ q.drop 2) ++ (if Item.eos ∈ taken then [Item.eos] else []) := by
  cases h with
  | inCall vs htaken dec decOut decDraws =>
    obtain ⟨p, q, ps, hv⟩ := exists_splits vs
    obtain ⟨hphase, hout⟩ := takeElements_of_splits hv hs
    refine ⟨p, q, ps, by rwa [htaken, elements_items], by rw [dec, hphase], ?_⟩
    rw [htaken, if_neg (eos_notMem_items vs), List.append_nil, decOut, hout]
  | ended vs htaken head idle decOut =>
    obtain ⟨p, q, ps, hv⟩ := exists_splits vs
    obtain ⟨hphase, hout⟩ := takeElements_of_splits hv hs
    refine ⟨p, q, ps, by simpa [htaken] using hv, ?_, ?_⟩
    · rw [hphase]; exact iff_of_true head idle.phase
    · rw [htaken, if_pos (by simp), decOut, hout]

/-! ### The two units chained: every turn keeps them so -/

/-- What is on its way to DEC: the items that wait for it and those still to be carried. -/
def State.onItsWay (t : State) : List Item := t.decIn ++ t.notPassed

/-- The chained units in the call on `bs` that began in `s`: DEC has taken `taken`, and the rest of what ENC has emitted
is on its way. -/
structure Chained (bs : List Byte) (s t : State) (taken : List Item) : Prop where
  /-- `ENC.out` has gained what DEC has taken and what is on its way. -/
  encOut : t.encOut = s.encOut ++ (taken ++ t.onItsWay)
  /-- The connection stays within `ENC.out`. -/
  passed_le : t.passed ≤ t.encOut.length
  /-- ENC. -/
  emitted : Emitted bs t.enc t.encIn (taken ++ t.onItsWay)
  /-- DEC. -/
  took : Took s t.dec t.decOut t.decDraws taken
  /-- No `RESET` is to come. -/
  turns : t.turns.all Turn.chains = true

theorem ChainStart.chained {bs : List Byte} {s : State} (h : ChainStart bs s)
    (hturns : s.turns.all Turn.chains = true) : Chained bs s s [] := by
  have hway : s.onItsWay = [] := by simp [State.onItsWay, State.notPassed, h.decIn, h.passed]
  refine ⟨by simp [hway], h.passed.le, ?_, .inCall [] rfl rfl rfl rfl, hturns⟩
  exact .inCall [] [] bs h.encIn (by simp [hway]) h.enc.inv rfl (by simp [h.enc.pending])

section Chained

variable {bs : List Byte} {s t : State} {taken : List Item} (h : Chained bs s t taken)
include h

theorem Chained.withTurns {ts : List Turn} (hts : ts.all Turn.chains = true) :
    Chained bs s { t with turns := ts } taken :=
  ⟨h.encOut, h.passed_le, h.emitted, h.took, hts⟩

/-- ENC gets on and appends `xs`, which is then on its way. -/
theorem Chained.appendEnc {e : EncState} {input xs : List Item} (n : Nat)
    (he : Emitted bs e input (taken ++ t.onItsWay ++ xs)) :
    Chained bs s { t with enc := e, encIn := input, encOut := t.encOut ++ xs, encDraws := n } taken := by
  have hway : State.onItsWay { t with enc := e, encIn := input, encOut := t.encOut ++ xs, encDraws := n } =
      t.onItsWay ++ xs := by
    simp [State.onItsWay, State.notPassed, List.drop_append_of_le_length h.passed_le]
  refine ⟨?_, h.passed_le.trans (by simp), ?_, h.took, h.turns⟩
  · rw [hway, h.encOut]; simp
  · rwa [hway, ← List.append_assoc]

theorem Chained.takeSym {b : Byte} {r : List Item} (hin : t.encIn = .elem b :: r) :
    ∃ t', exec (.encSym b) { t with encIn := r } = .next t' ∧ Chained bs s t' taken := by
  obtain ⟨e', out, hstep, hexec⟩ := exec_encSym_steps (s := { t with encIn := r }) h.emitted.inv b
  exact ⟨_, hexec, h.appendEnc t.encDraws ((hin ▸ h.emitted).takeSym hstep)⟩

theorem Chained.takeEncEnd {r : List Item} (hin : t.encIn = .eos :: r) :
    ∃ t', exec .encEnd { t with encIn := r } = .next t' ∧ Chained bs s t' taken := by
  exact ⟨_, encFinish_eq Config.emitZeroRun _,
    h.appendEnc (t.encDraws + 1) ((hin ▸ h.emitted).takeEnd Config.emitZeroRun (encReinit_idle _))⟩

theorem Chained.passItem : Chained bs s (passItem t) taken := by
  have hway : (Machine.passItem t).onItsWay = t.onItsWay := passItem_onItsWay t
  refine ⟨?_, ?_, ?_, ?_, ?_⟩
  · rw [hway, passItem_encOut, h.encOut]
  · rw [passItem_encOut]; exact passItem_passed_le h.passed_le
  · rw [hway, passItem_enc, passItem_encIn]; exact h.emitted
  · rw [passItem_dec, passItem_decOut, passItem_decDraws]; exact h.took
  · rw [passItem_turns]; exact h.turns

/-- DEC takes the items `xs` from the front of its input and gets on. -/
theorem Chained.advanceDec {d : DecState} {xs r out : List Item} {n : Nat} (hin : t.decIn = xs ++ r)
    (hd : Took s d out n (taken ++ xs)) :
    Chained bs s { t with decIn := r, dec := d, decOut := out, decDraws := n } (taken ++ xs) := by
  have hway : t.onItsWay = xs ++ (r ++ t.notPassed) := by rw [State.onItsWay, hin, List.append_assoc]
  have hall : taken ++ xs ++ (r ++ t.notPassed) = taken ++ t.onItsWay := by rw [hway, List.append_assoc]
  exact ⟨h.encOut.trans (by rw [← hall]; rfl), h.passed_le, hall ▸ h.emitted, hd, h.turns⟩

/-- DEC takes elements from the front of its input. -/
theorem Chained.takeElements {vs : List Byte} {r : List Item} (hvs : vs ≠ []) (hin : t.decIn = items vs ++ r) :
    Chained bs s (takeElements vs { t with decIn := r }) (taken ++ items vs) := by
  cases h.took with
  | inCall ws htaken hdec hout hdraws =>
    have hput : State.withDec { t with decIn := r } (Machine.takeElements ws s) = { t with decIn := r } :=
      State.withDec_eq_of_agree hdec hout hdraws
    rw [← hput, takeElements_withDec, ← takeElements_append]
    exact h.advanceDec hin (.inCall (ws ++ vs) (by rw [htaken, items_append]) rfl rfl rfl)
  | ended ws htaken =>
    have hem := h.emitted
    rw [htaken, State.onItsWay, hin, List.append_assoc, List.singleton_append] at hem
    obtain ⟨hnothing, -⟩ := hem.of_eos
    exact absurd (by simpa [items] using hnothing : vs = [] ∧ r = [] ∧ t.notPassed = []).1 hvs

/-- DEC takes the end mark. -/
theorem Chained.takeDecEnd (hs : s.dec.phase = .head) {r : List Item} (hin : t.decIn = .eos :: r) :
    ∃ t', exec .decEnd { t with decIn := r } = .next t' ∧ Chained bs s t' (taken ++ [.eos]) := by
  have hem := h.emitted
  cases h.took with
  | inCall ws htaken hdec hout hdraws =>
    rw [htaken, State.onItsWay, hin, List.cons_append] at hem
    obtain ⟨-, -, -, hbs⟩ := hem.of_eos
    obtain ⟨hhead, -⟩ := takeElements_wellFormed hbs hs
    refine ⟨decReinit (State.putDec { t with decIn := r } [.eos]), ?_, ?_⟩
    · rcases execDecEnd_cases { t with decIn := r } with ⟨-, hs'⟩ | ⟨hne, -, -⟩ | ⟨hf, -⟩
      · exact hs'
      · exact absurd (hdec ▸ hhead) hne
      · exact absurd (hf.symm.trans (hdec ▸ hhead)) (by simp)
    · exact h.advanceDec hin (.ended ws (by rw [htaken]) hhead ⟨rfl, rfl⟩ (by rw [← hout]; rfl))
  | ended ws htaken =>
    rw [htaken, State.onItsWay, hin, List.append_assoc, List.singleton_append] at hem
    cases hem.of_eos.1

/-- A turn of ENC. -/
theorem Chained.step_encItem {rest : List Turn} (hturn : t.turns = .encItem :: rest) :
    ∃ t', step t = .next t' ∧ Chained bs s t' taken := by
  have hrest : Chained bs s { t with turns := rest } taken :=
    h.withTurns (by simpa [hturn, Turn.chains] using h.turns)
  match hin : t.encIn with
  | [] => exact ⟨_, step_of_fetch_none hturn (fetchEncItem_of_nil hin), hrest⟩
  | .elem b :: r => rw [step_encItem_elem hturn hin]; exact hrest.takeSym hin
  | .eos :: r => rw [step_encItem_eos hturn hin]; exact hrest.takeEncEnd hin

/-- A turn in which DEC takes an item. -/
theorem Chained.step_decItem (hs : s.dec.phase = .head) {rest : List Turn} (hturn : t.turns = .decItem :: rest) :
    ∃ t' taken', step t = .next t' ∧ Chained bs s t' taken' := by
  have hrest : Chained bs s { t with turns := rest } taken :=
    h.withTurns (by simpa [hturn, Turn.chains] using h.turns)
  match hin : t.decIn with
  | [] => exact ⟨_, taken, step_of_fetch_none hturn (fetchDecItem_of_nil hin), hrest⟩
  | .elem v :: r =>
    rw [step_of_fetch_some hturn (fetchDecItem_of_elem hin)]
    exact ⟨_, _, rfl, hrest.takeElements (vs := [v]) (by simp) hin⟩
  | .eos :: r =>
    rw [step_of_fetch_some hturn (fetchDecItem_of_eos hin)]
    exact (hrest.takeDecEnd hs hin).imp fun t' h' => ⟨_, h'⟩

/-- A turn in which DEC takes a whole token, or an item where no whole token stands. -/
theorem Chained.step_decToken (hs : s.dec.phase = .head) {rest : List Turn} (hturn : t.turns = .decToken :: rest) :
    ∃ t' taken', step t = .next t' ∧ Chained bs s t' taken' := by
  have hrest : rest.all Turn.chains = true := by simpa [hturn, Turn.chains] using h.turns
  match hd : decode (leadingElements t.decIn) with
  | .ok (i, after) =>
    obtain ⟨ys, hys, -⟩ := leadingElements_split t.decIn
    have hin : t.decIn = items (elementsOf i) ++ (items after ++ ys) := by
      rw [← List.append_assoc, ← items_append, ← decode_ok_elementsOf hd]
      exact hys
    have hdrop : t.decIn.drop (elementsOf i).length = items after ++ ys := by
      rw [hin]; exact List.drop_left' (items_length _)
    have hne : elementsOf i ≠ [] := fun h0 => by simpa [h0] using decode_elementsOf hd
    rw [step_of_fetch_some hturn (fetchDecToken_of_ok hd), exec_decoded hd]
    refine ⟨_, taken ++ items (elementsOf i), rfl, ?_⟩
    dsimp only
    rw [hdrop]
    exact (h.withTurns hrest).takeElements hne hin
  | .error e =>
    rw [step_eq_of_fetch_eq (t' := .decItem) hturn (fetchDecToken_of_error hd)]
    exact (h.withTurns (ts := .decItem :: rest) (by simpa [Turn.chains] using hrest)).step_decItem hs rfl

/-- Whatever turn comes, the chained units take it and stay so. -/
theorem Chained.step (hs : s.dec.phase = .head) : ∃ t' taken', step t = .next t' ∧ Chained bs s t' taken' := by
  match hturns : t.turns with
  | [] => exact ⟨t, taken, step_of_no_turn hturns, h⟩
  | .encItem :: rest => exact (h.step_encItem hturns).imp fun t' h' => ⟨taken, h'⟩
  | .decItem :: rest => exact h.step_decItem hs hturns
  | .decToken :: rest => exact h.step_decToken hs hturns
  | .passItem :: rest =>
    have hrest : rest.all Turn.chains = true := by simpa [hturns, Turn.chains] using h.turns
    exact ⟨_, taken, step_passItem hturns, (h.withTurns hrest).passItem⟩
  | .encReset _ :: rest | .decReset _ :: rest => simpa [hturns, Turn.chains] using h.turns

/-- So they stay for any number of steps. -/
theorem Chained.stepN (hs : s.dec.phase = .head) (k : Nat) :
    ∃ t' taken', stepN k t = .next t' ∧ Chained bs s t' taken' := by
  induction k generalizing t taken with
  | zero => exact ⟨t, taken, rfl, h⟩
  | succ k ih =>
    obtain ⟨u, taken', hstep, hu⟩ := h.step hs
    rw [stepN_succ, hstep, andThen_next]
    exact ih hu

/-- The chained units stand as rule R153 says. -/
theorem Chained.chainedAt (hs : s.dec.phase = .head) : ∃ p q ps qs, ChainedAt bs s t taken p q ps qs := by
  obtain ⟨p, q, ps, hsplit, hphase, hout⟩ := h.took.splits hs
  obtain ⟨done, hdone, hbs⟩ := h.emitted.covers
  rw [elements_append, hsplit.eq_append, List.append_assoc] at hdone
  obtain ⟨qs, hqs, rfl⟩ := decodeStream_append_right hsplit.complete hdone
  refine ⟨p, q, ps, qs,
    { itemForItem := by rw [h.encOut, State.onItsWay]; simp only [List.append_assoc]
      taken_eq := hsplit.eq_append
      complete := hsplit.complete
      inside := hphase
      incomplete := hsplit.incomplete
      coming := hqs
      decOut := hout
      isPrefix := ?isPrefix
      covers := hbs }⟩
  case isPrefix =>
    rw [List.prefix_append_right_inj]
    by_cases hq : q = []
    · simp [hq]
    · obtain ⟨e, hd⟩ := hsplit.incomplete hq
      exact drop_two_isPrefix_of_completed hq hd hqs

/-- Once nothing is to come and nothing on its way, both units have taken their end marks. -/
theorem Chained.idle_of_all_taken (hin : t.encIn = []) (hway : t.onItsWay = []) :
    t.enc.Idle ∧ t.dec.Idle ∧ Item.eos ∈ taken := by
  have hem := h.emitted
  rw [hin, hway, List.append_nil] at hem
  cases hem with
  | inCall out done rest input => simp at input
  | ended out input output henc =>
    have heos : Item.eos ∈ taken := by simp [output]
    cases h.took with
    | inCall vs htaken => exact absurd (htaken ▸ heos) (eos_notMem_items vs)
    | ended vs htaken head hdec => exact ⟨henc, hdec, heos⟩

end Chained

/-- At the end of the call `DEC.out` has gained the input and the end mark. -/
theorem ChainedAt.decOut_of_all_taken {bs : List Byte} {s t : State} {taken : List Item} {p q ps qs : List Byte}
    (h : ChainedAt bs s t taken p q ps qs) (henc : t.enc.Idle) (hdec : t.dec.Idle) (heos : Item.eos ∈ taken)
    (hin : t.encIn = []) (hway : t.decIn ++ t.notPassed = []) :
    t.decOut = s.decOut ++ bs.map Item.elem ++ [Item.eos] := by
  have hq : q = [] := h.inside.mpr hdec.phase
  have hqs : qs = [] := by simpa [hq, hway] using h.coming.symm
  have hbs : bs = ps := by simpa [hqs, henc.pending, hin] using h.covers
  simpa [hq, heos, hbs] using h.decOut

/-! ### Turns that lead to the end of the call -/

/-- Turns of ENC alone run the `ENC.SYM` events of the symbols at the front of its input. -/
theorem stepN_encItems {bs : List Byte} {u : State} {rest : List Turn} {r : List Item}
    (hturns : u.turns = List.replicate bs.length .encItem ++ rest) (hin : u.encIn = items bs ++ r) (s : State) :
    stepN bs.length (u.withEnc s) = andThen (execAll (encSyms bs) s) fun t =>
      .next (State.withEnc { u with turns := rest, encIn := r } t) := by
  induction bs generalizing u s with
  | nil =>
    obtain rfl : u.turns = rest := hturns
    obtain rfl : u.encIn = r := hin
    rfl
  | cons b bs ih =>
    let v : State := { u with turns := List.replicate bs.length .encItem ++ rest, encIn := items bs ++ r }
    have hstep : step (u.withEnc s) = exec (.encSym b) (v.withEnc s) :=
      step_encItem_elem (s := u.withEnc s) hturns hin
    rw [List.length_cons, stepN_succ, hstep, exec_localTo_enc rfl v s, andThen_assoc]
    show _ = andThen (andThen (exec (.encSym b) s) (execAll (encSyms bs))) _
    rw [andThen_assoc]
    congr 1
    funext t
    exact ih (u := v) rfl rfl t

/-- The turns of a whole call of ENC: what ENC appends does not depend on the turns that follow. -/
theorem stepN_encCall {bs : List Byte} {s : State} (hidle : s.enc.Idle) (hin : s.encIn = items bs ++ [.eos]) :
    ∃ xs e n, ∀ rest, stepN (bs.length + 1)
        { s with turns := List.replicate (bs.length + 1) .encItem ++ rest } =
      .next { s with turns := rest, encIn := [], enc := e, encOut := s.encOut ++ xs, encDraws := n } := by
  obtain ⟨t, out, done, ht⟩ := encCovers_of_idle bs hidle
  have hout : t.encOut = s.encOut ++ items out := by rw [ht.frame]
  let u := encReinit (t.putEnc (items (t.enc.lastToken Config.emitZeroRun) ++ [.eos]))
  refine ⟨items out ++ (items (t.enc.lastToken Config.emitZeroRun) ++ [.eos]), u.enc, u.encDraws, fun rest => ?_⟩
  rw [List.replicate_succ', List.append_assoc, stepN_add]
  have hsyms := stepN_encItems
    (u := { s with turns := List.replicate bs.length .encItem ++ ([.encItem] ++ rest) }) rfl hin s
  rw [ht.run, andThen_next] at hsyms
  let v : State := State.withEnc { s with turns := .encItem :: rest, encIn := [.eos] } t
  have hend : step v = encFinish Config.emitZeroRun { v with turns := rest, encIn := [] } := step_encItem_eos rfl rfl
  refine (congrArg (andThen · _) hsyms).trans ?_
  show andThen (step v) (stepN 0) = _
  rw [hend, encFinish_eq, andThen_next, stepN_zero, ← List.append_assoc, ← hout]
  rfl

/-- Turns of the connection carry as many items as there are turns. -/
theorem stepN_passItems {m : Nat} {u : State} {rest : List Turn}
    (hturns : u.turns = List.replicate m .passItem ++ rest) (hm : u.passed + m = u.encOut.length) :
    stepN m u = .next { u with turns := rest, decIn := u.decIn ++ u.notPassed, passed := u.passed + m } := by
  induction m generalizing u with
  | zero =>
    obtain rfl : u.turns = rest := hturns
    have hnone : u.notPassed = [] := List.drop_eq_nil_of_le hm.ge
    simp [hnone]
  | succ m ih =>
    have hlt : u.passed < u.encOut.length := by omega
    have hstep : step u = .next { u with
        turns := List.replicate m .passItem ++ rest
        decIn := u.decIn ++ [u.encOut[u.passed]]
        passed := u.passed + 1 } :=
      (step_passItem hturns).trans (congrArg Host.Outcome.next (passItem_of_next (List.getElem?_eq_getElem hlt)))
    rw [stepN_succ, hstep, andThen_next, ih rfl (by rw [← hm]; dsimp only; omega)]
    simp [State.notPassed, Nat.add_assoc, Nat.add_comm 1]

/-- Turns of DEC alone empty its input, whatever it holds. -/
theorem stepN_decItems {m : Nat} {u : State} {rest : List Turn} (hturns : u.turns = List.replicate m .decItem ++ rest)
    (hm : u.decIn.length = m) :
    ∃ t, stepN m u = .next t ∧ t.turns = rest ∧ t.decIn = [] ∧ t.encIn = u.encIn ∧ t.notPassed = u.notPassed := by
  induction m generalizing u with
  | zero => exact ⟨u, rfl, hturns, List.length_eq_zero_iff.mp hm, rfl, rfl⟩
  | succ m ih =>
    obtain ⟨x, r, hin⟩ := List.exists_cons_of_length_eq_add_one hm
    have hr : r.length = m := by simpa [hin] using hm
    obtain ⟨i, hi, hfetch⟩ : ∃ i : Instr, i.isEnc = false ∧
        fetchDecItem { u with turns := List.replicate m .decItem ++ rest } =
          (some i, { u with turns := List.replicate m .decItem ++ rest, decIn := r }) := by
      cases x with
      | elem v => exact ⟨.decElem v, rfl, fetchDecItem_of_elem hin⟩
      | eos => exact ⟨.decEnd, rfl, fetchDecItem_of_eos hin⟩
    obtain ⟨v, hv⟩ := exec_completes (i := i)
      (s := { u with turns := List.replicate m .decItem ++ rest, decIn := r }) (by rintro ⟨⟨b, rfl⟩, -⟩; cases hi)
    have hframe := (exec_localTo_dec hi).frame State.withDec_self hv
    rw [stepN_succ, step_of_fetch_some hturns hfetch, hv, andThen_next, hframe]
    exact ih rfl hr

/-- Settles O60: every turn keeps the chained units as they should stand; ENC's whole call, then the connection carrying
all of it, then DEC taking it item by item are turns that lead to the end. -/
theorem chainedUnitsReproduceInput : Obligations.ChainedUnitsReproduceInput := by
  intro bs s hstart
  refine ⟨fun hturns k => ?moment, ?turns⟩
  case moment =>
    obtain ⟨t, taken, hrun, ht⟩ := (hstart.chained hturns).stepN hstart.dec.phase k
    obtain ⟨p, q, ps, qs, hat⟩ := ht.chainedAt hstart.dec.phase
    refine ⟨t, taken, p, q, ps, qs, hrun, hat, fun hin hdecIn hrest => ?_⟩
    have hway : t.decIn ++ t.notPassed = [] := by rw [hdecIn, hrest]; rfl
    obtain ⟨henc, hdec, heos⟩ := ht.idle_of_all_taken hin hway
    exact ⟨hat.decOut_of_all_taken henc hdec heos hin hway, by simp [DecState.err, hdec.phase], henc, hdec⟩
  case turns =>
    obtain ⟨xs, e, n, hcall⟩ := stepN_encCall hstart.enc hstart.encIn
    let rest := List.replicate xs.length Turn.decItem
    let u : State := { s with
      turns := List.replicate xs.length .passItem ++ rest
      encIn := []
      enc := e
      encOut := s.encOut ++ xs
      encDraws := n }
    have hnew : u.notPassed = xs := by simp [u, State.notPassed, hstart.passed]
    have hpass := stepN_passItems (u := u) (rest := rest) rfl (by simp [u, hstart.passed])
    rw [hnew] at hpass
    obtain ⟨t, ht, hturns, hdecIn, hencIn, hnot⟩ := stepN_decItems (m := xs.length) (rest := [])
      (u := { u with turns := rest, decIn := u.decIn ++ xs, passed := u.passed + xs.length })
      (List.append_nil _).symm (by simp [u, hstart.decIn])
    refine ⟨xs.length, t, ?_, hencIn, hdecIn, ?_, hturns⟩
    · rw [stepN_add, stepN_add, List.append_assoc, hcall, andThen_next, hpass, andThen_next, ht]
    · rw [hnot]; simp [u, State.notPassed, hstart.passed]

end Sys2Proof.Machine

namespace Sys2Proof

/-! ### Streams whose tokens differ in their symbols alone -/

/-- A token with its symbols renamed; an event has none. -/
def Instr.rename (f : Byte → Byte) : Instr → Instr
  | .lit c syms => .lit c (syms.map f)
  | .run n s => .run n (f s)
  | .encReset => .encReset
  | .encSym b => .encSym b
  | .encEnd => .encEnd
  | .decReset => .decReset
  | .decElem v => .decElem v
  | .decEnd => .decEnd

/-- The tokens of two well-formed streams one after the other. -/
theorem tokens_append {vs ws : List Byte} {ks ls : List Instr} (hv : tokens vs = .ok ks) (hw : tokens ws = .ok ls) :
    tokens (vs ++ ws) = .ok (ks ++ ls) := by
  induction vs using stream_induction generalizing ks with
  | nil => cases hv; exact hw
  | stuck vs e hne hd => rw [tokens_of_decode_error hne hd] at hv; cases hv
  | token vs i rest hd ih =>
    rw [tokens_of_decode hd] at hv
    rw [tokens_of_decode (decode_append hd ws)]
    match hrest : tokens rest with
    | .error e => rw [hrest] at hv; cases hv
    | .ok ks' =>
      rw [hrest] at hv
      cases hv
      rw [ih hrest]
      rfl

/-- Two well-formed streams of which the second has the tokens of the first with their symbols renamed. -/
def Renames (f : Byte → Byte) (vs ws : List Byte) : Prop :=
  ∃ ks, tokens vs = .ok ks ∧ tokens ws = .ok (ks.map (Instr.rename f))

theorem Renames.nil (f : Byte → Byte) : Renames f [] [] := ⟨[], rfl, rfl⟩

theorem Renames.append {f : Byte → Byte} {vs ws vs' ws' : List Byte} (h : Renames f vs ws) (h' : Renames f vs' ws') :
    Renames f (vs ++ vs') (ws ++ ws') := by
  obtain ⟨ks, hv, hw⟩ := h
  obtain ⟨ks', hv', hw'⟩ := h'
  exact ⟨ks ++ ks', tokens_append hv hv', by rw [tokens_append hw hw', List.map_append]⟩

/-- One token and its renaming. -/
theorem Renames.of_decode {f : Byte → Byte} {vs ws : List Byte} {k : Instr} (hv : decode vs = .ok (k, []))
    (hw : decode ws = .ok (k.rename f, [])) : Renames f vs ws :=
  ⟨[k], by rw [tokens_of_decode hv]; rfl, by rw [tokens_of_decode hw]; rfl⟩

end Sys2Proof

namespace Sys2Proof.Machine

theorem renames_runElements {n : Byte} (hn : n ≠ Config.marker) (f : Byte → Byte) (s : Byte) :
    Renames f (runElements n s) (runElements n (f s)) :=
  .of_decode (decode_run hn s []) (decode_run hn (f s) [])

theorem renames_litElements {c : Byte} {ss : List Byte} (h : ss.length = countOf c) (f : Byte → Byte) :
    Renames f (litElements c ss) (litElements c (ss.map f)) :=
  .of_decode (decode_litElements h) (decode_litElements ((List.length_map f).trans h))

/-! ### ENC's registers under a renaming of the symbols -/

/-- What `ENC.SYM(b)` leaves in ENC's registers and appends, by the cases of P97. -/
def EncState.afterSym (b : Byte) (e : EncState) : EncState × List Byte :=
  if e.matchesPat b then
    if 2 ≤ e.qLen.toNat then ({ e with rl := 1, qLen := 0 }, litElements e.qLen e.queue)
    else if e.qLen = 1 then ({ e with rl := 2, qLen := 0 }, [])
    else if e.rl = 253 then ({ e with rl := 0 }, runElements Config.maxRun e.pat)
    else ({ e with rl := e.rl + 1 }, [])
  else if e.qLen = 255 then ({ e with qLen := 0 }.pushed b, litElements e.qLen e.queue)
  else if e.rl ≠ 0 then (e.pushed b, runElements e.rl e.pat)
  else (e.pushed b, [])

/-- The relation of a step determines what the step does. -/
theorem EncSymStep.afterSym_eq {b : Byte} {e e' : EncState} {out : List Byte} (h : EncSymStep b e e' out) :
    e.afterSym b = (e', out) := by
  unfold EncState.afterSym
  cases h with
  | flushQueue hm hq => simp [hm, hq]
  | reclassify hm hq => simp [hm, hq]
  | lengthenRun hm hq hr =>
    have hne : e.rl ≠ 253 := fun h0 => by simp [h0] at hr
    rw [if_pos hm, if_neg (by simp [hq]), if_neg (by simp [hq]), if_neg hne]
  | splitRun hm hq hr => simp [hm, hq, hr]
  | endRun hm hq hr => rw [if_neg (by simp [hm]), if_neg (by simp [hq]), if_pos hr]
  | makeRoom hm hq => rw [if_neg (by simp [hm]), if_pos hq]
  | append hm hq hr => rw [if_neg (by simp [hm]), if_neg hq, if_neg (not_not.mpr hr)]

/-- The state with these registers and this output. -/
def State.afterSym (b : Byte) (s : State) : State :=
  { s with enc := (s.enc.afterSym b).1, encOut := s.encOut ++ items (s.enc.afterSym b).2 }

/-- Where the invariant holds, `ENC.SYM` completes with it. -/
theorem exec_encSym_eq {s : State} (h : s.enc.Inv) (b : Byte) : exec (.encSym b) s = .next (s.afterSym b) := by
  obtain ⟨e', out, hstep, hexec⟩ := exec_encSym_steps h b
  rw [hexec, State.afterSym, hstep.afterSym_eq]

/-- One more symbol appends to what a call has appended. -/
theorem State.afterSym_encOut {s t : State} {out : List Byte} (h : t.encOut = s.encOut ++ items out) (b : Byte) :
    (t.afterSym b).encOut = s.encOut ++ items (out ++ (t.enc.afterSym b).2) := by
  rw [items_append, ← List.append_assoc, ← h]
  rfl

/-- Where the invariant holds, `ENC.SYM` keeps it. -/
theorem EncState.Inv.afterSym {e : EncState} (h : e.Inv) (b : Byte) : (e.afterSym b).1.Inv := by
  obtain ⟨e', out, hstep, -⟩ := exec_encSym_steps (s := { State.reset with enc := e }) h b
  rw [hstep.afterSym_eq]
  exact hstep.keeps_inv h

/-- ENC's registers `e'` are `e` with the symbols in them renamed by `f`. -/
structure EncState.Renamed (f : Byte → Byte) (e e' : EncState) : Prop where
  /-- Same valid bit. -/
  pv : e'.pv = e.pv
  /-- The renamed pattern, where there is one. -/
  pat : e.pv = true → e'.pat = f e.pat
  /-- Same run length. -/
  rl : e'.rl = e.rl
  /-- Same fill count. -/
  qLen : e'.qLen = e.qLen
  /-- The renamed queue. -/
  queue : e'.queue = e.queue.map f

section Renamed

variable {f : Byte → Byte} {e e' : EncState} (h : e.Renamed f e')
include h

/-- A renaming keeps different symbols different, so ENC's one comparison answers the same (rule R92). -/
theorem EncState.Renamed.matchesPat (hf : Function.Injective f) (b : Byte) :
    e'.matchesPat (f b) = e.matchesPat b := by
  match hpv : e.pv with
  | true => simp [EncState.matchesPat, h.pv, h.pat hpv, hpv, hf.eq_iff, beq_eq_decide]
  | false => simp [EncState.matchesPat, h.pv, hpv]

theorem EncState.Renamed.withRun (n : Byte) : EncState.Renamed f { e with rl := n } { e' with rl := n } :=
  ⟨h.pv, h.pat, rfl, h.qLen, h.queue⟩

theorem EncState.Renamed.emptied : EncState.Renamed f { e with qLen := 0 } { e' with qLen := 0 } :=
  ⟨h.pv, h.pat, h.rl, rfl, by rw [EncState.queue_eq_nil rfl, EncState.queue_eq_nil rfl]; rfl⟩

theorem EncState.Renamed.pushed (hq : e.qLen ≠ 255) (b : Byte) : (e.pushed b).Renamed f (e'.pushed (f b)) where
  pv := rfl
  pat _ := rfl
  rl := rfl
  qLen := congrArg (· + 1) h.qLen
  queue := by
    rw [EncState.pushed_queue hq, EncState.pushed_queue (h.qLen ▸ hq), h.queue, List.map_append]
    rfl

/-- The queue as a token. -/
theorem EncState.Renamed.lit : Renames f (litElements e.qLen e.queue) (litElements e'.qLen e'.queue) := by
  rw [h.qLen, h.queue]
  exact renames_litElements e.queue_length f

/-- The pattern in a run. -/
theorem EncState.Renamed.run (hpv : e.pv = true) {n : Byte} (hn : n ≠ Config.marker) :
    Renames f (runElements n e.pat) (runElements n e'.pat) := by
  rw [h.pat hpv]
  exact renames_runElements hn f e.pat

/-- One step of `ENC.SYM` on the renamed symbol. -/
theorem EncState.Renamed.afterSym (hf : Function.Injective f) (hinv : e.Inv) (b : Byte) :
    (e.afterSym b).1.Renamed f (e'.afterSym (f b)).1 ∧ Renames f (e.afterSym b).2 (e'.afterSym (f b)).2 := by
  unfold EncState.afterSym
  rw [h.matchesPat hf]
  obtain ⟨pv', pat', rl', qMem', qLen'⟩ := e'
  obtain rfl : rl' = e.rl := h.rl
  obtain rfl : qLen' = e.qLen := h.qLen
  split
  · rename_i hm
    have hpv := (matchesPat_iff.mp hm).1
    split
    · exact ⟨h.emptied.withRun 1, h.lit⟩
    · split
      · exact ⟨h.emptied.withRun 2, .nil f⟩
      · split
        · exact ⟨h.withRun 0, h.run hpv (by decide)⟩
        · exact ⟨h.withRun _, .nil f⟩
  · split
    · exact ⟨h.emptied.pushed (by simp) b, h.lit⟩
    · rename_i hq
      split
      · rename_i hr
        exact ⟨h.pushed hq b, h.run (hinv.pv_of_run hr) hinv.rl_ne_marker⟩
      · exact ⟨h.pushed hq b, .nil f⟩

theorem EncState.Renamed.lastToken (hinv : e.Inv) (zeroRun : Bool) :
    Renames f (e.lastToken zeroRun) (e'.lastToken zeroRun) := by
  unfold EncState.lastToken
  rw [h.pv, h.rl]
  split
  · exact .nil f
  · rename_i hpv
    have hlit := h.lit
    rw [h.qLen] at hlit ⊢
    split
    · exact hlit
    · split
      · exact h.run (Bool.eq_true_of_not_eq_false hpv) hinv.rl_ne_marker
      · exact .nil f

end Renamed

theorem EncState.Idle.renamed {e : EncState} (h : e.Idle) (f : Byte → Byte) : e.Renamed f e where
  pv := rfl
  pat hpv := by simp [h.pv] at hpv
  rl := rfl
  qLen := rfl
  queue := by rw [EncState.queue_eq_nil h.qLen]; rfl

/-- How ENC stands after the symbols `bs` of a call from `s`, in `t` with `out` appended, and after the renamed symbols,
in `t'` with `out'` appended. -/
structure RenamedRun (f : Byte → Byte) (bs : List Byte) (s t t' : State) (out out' : List Byte) : Prop where
  /-- The symbols have been consumed. -/
  run : execAll (encSyms bs) s = .next t
  /-- The renamed ones too. -/
  run' : execAll (encSyms (bs.map f)) s = .next t'
  /-- What has been appended. -/
  encOut : t.encOut = s.encOut ++ items out
  /-- What has been appended for the renamed symbols. -/
  encOut' : t'.encOut = s.encOut ++ items out'
  /-- The invariants hold. -/
  inv : t.enc.Inv
  /-- They hold for the renamed symbols. -/
  inv' : t'.enc.Inv
  /-- The registers differ by the renaming. -/
  enc : t.enc.Renamed f t'.enc
  /-- The outputs differ by the renaming. -/
  out : Renames f out out'

theorem renamedRun_of_idle {f : Byte → Byte} (hf : Function.Injective f) (bs : List Byte) {s : State} (h : s.enc.Idle) :
    ∃ t t' out out', RenamedRun f bs s t t' out out' := by
  induction bs using List.reverseRecOn with
  | nil => exact ⟨s, s, [], [], rfl, rfl, by simp, by simp, h.inv, h.inv, h.renamed f, .nil f⟩
  | append_singleton cs b ih =>
    obtain ⟨t, t', out, out', ht⟩ := ih
    obtain ⟨henc, hnew⟩ := ht.enc.afterSym hf ht.inv b
    refine ⟨t.afterSym b, t'.afterSym (f b), _, _,
      { run := (execAll_encSyms_concat ht.run b).trans (exec_encSym_eq ht.inv b)
        run' := ?run'
        encOut := State.afterSym_encOut ht.encOut b
        encOut' := State.afterSym_encOut ht.encOut' (f b)
        inv := ht.inv.afterSym b
        inv' := ht.inv'.afterSym (f b)
        enc := henc
        out := ht.out.append hnew }⟩
    case run' =>
      rw [List.map_append]
      exact (execAll_encSyms_concat ht.run' (f b)).trans (exec_encSym_eq ht.inv' (f b))

/-- `pack` is what the symbols of the call append, and the last token. -/
theorem pack_of_run {zeroRun : Bool} {bs : List Byte} {t : State} {out : List Byte}
    (hrun : execAll (encSyms bs) .reset = .next t) (hout : t.encOut = items out) :
    pack zeroRun bs = out ++ t.enc.lastToken zeroRun := by
  rw [pack, encCall, hrun, andThen_next, encFinish_eq]
  simp [hout]

/-- The tokens of `pack` of the renamed symbols are those of `pack` of the symbols, renamed. -/
theorem pack_renames {f : Byte → Byte} (hf : Function.Injective f) (zeroRun : Bool) (bs : List Byte) :
    Renames f (pack zeroRun bs) (pack zeroRun (bs.map f)) := by
  obtain ⟨t, t', out, out', h⟩ := renamedRun_of_idle hf bs (s := .reset) ⟨rfl, rfl, rfl⟩
  rw [pack_of_run h.run h.encOut, pack_of_run h.run' h.encOut']
  exact h.out.append (h.enc.lastToken h.inv zeroRun)

/-- Settles O37: every step of ENC commutes with the renaming; the examples are runs of the model. -/
theorem packTreatsAllSymbolsAlike : Obligations.PackTreatsAllSymbolsAlike := by
  refine ⟨fun zeroRun f bs hf => ?renamed, fun zeroRun => ?examples⟩
  case renamed =>
    obtain ⟨ks, hks, hrenamed⟩ := pack_renames hf zeroRun bs
    refine ⟨ks, hks, hrenamed.trans (congrArg _ (List.map_congr_left fun k _ => ?_))⟩
    cases k <;> rfl
  case examples => cases zeroRun <;> decide +kernel

end Sys2Proof.Machine

/-! # Proofs: the wire format (30_encoding.md)

Encoding and decoding one token are inverse to each other (O44, O45), the first element tells the token's kind (O46, with
words written out by hand in O49), bytes that begin with no token are cut short (O47), and a stream of tokens splits in
one way (O48). An opcode-table word placed for the next step is what that step runs (O58). -/

namespace Sys2Proof

/-! ### One token -/

/-- A well-formed token's elements decode to it and leave nothing. -/
theorem decode_of_encode {i : Instr} {bs : List Byte} (hwf : i.wf = true) (he : encode i = some bs) :
    decode bs = .ok (i, []) := by
  cases i with
  | lit c syms =>
    cases he
    exact decode_litElements (lit_wf_iff.mp hwf)
  | run n s =>
    cases he
    exact decode_run (run_wf_iff.mp hwf) s []
  | encReset | encSym | encEnd | decReset | decElem | decEnd => cases he

/-- Settles O44: the elements alone decode to the token, and what follows a complete token is left over. -/
theorem decodeInvertsEncode : Obligations.DecodeInvertsEncode :=
  fun _ _ rest hwf he => decode_append (decode_of_encode hwf he) rest

/-- Settles O45: by the two forms a decoded token can have. -/
theorem encodeInvertsDecode : Obligations.EncodeInvertsDecode := by
  intro i vs rest h
  rcases decode_ok_cases h with ⟨n, s, hn, rfl, rfl⟩ | ⟨c, ss, hlen, rfl, rfl⟩
  · exact ⟨run_wf_iff.mpr hn, [n, s], rfl, rfl⟩
  · exact ⟨lit_wf_iff.mpr hlen, Machine.litElements c ss, rfl, rfl⟩

/-- Settles O46: by the two forms a decoded token can have; only a LIT begins with the marker. -/
theorem firstElementTellsTokenKind : Obligations.FirstElementTellsTokenKind := by
  intro m vs rest i h
  rcases decode_ok_cases h with ⟨n, s, hn, rfl, hvs⟩ | ⟨c, ss, -, rfl, hvs⟩
  · obtain rfl : m = n := (List.cons.inj hvs).1
    exact ⟨fun hm => absurd hm hn, fun _ => ⟨s, rfl⟩⟩
  · exact ⟨fun _ => ⟨c, ss, rfl⟩, fun hm => absurd (List.cons.inj hvs).1 hm⟩

/-- Settles O49: each word is the encoding of its token, so O44 says what it decodes to. -/
theorem handWrittenWordsDecode : Obligations.HandWrittenWordsDecode :=
  ⟨decodeInvertsEncode (.run 5 0x41) [0x05, 0x41] [] (by decide) rfl,
    decodeInvertsEncode (.run 3 0xFF) [0x03, 0xFF] [] (by decide) rfl,
    decodeInvertsEncode (.run 0 0x99) [0x00, 0x99] [0xFF] (by decide) rfl,
    decodeInvertsEncode (.lit 2 [0x41, 0x46]) [0xFF, 0x02, 0x41, 0x46] [] (by decide) rfl,
    decodeInvertsEncode (.lit 1 [0xFF]) [0xFF, 0x01, 0xFF] [0x01] (by decide) rfl,
    decodeInvertsEncode (.lit 0 []) [0xFF, 0x00] [] (by decide) rfl⟩

/-! ### Truncated bytes -/

/-- A marker and a count with fewer symbols than the count says. -/
theorem decode_lit_short {c : Byte} {ss : List Byte} (h : ss.length < countOf c) :
    decode (Config.marker :: c :: ss) = .error .litSymbolsMissing := by
  rw [decode_marker, if_neg (Nat.not_le.mpr h)]

/-- Settles O47: the ways a stream can fail to begin with a token, and that each of them does fail by its name. -/
theorem decodeRejectsOnlyTruncation : Obligations.DecodeRejectsOnlyTruncation := by
  intro vs e
  constructor
  · intro h
    by_cases hvs : vs = []
    · subst hvs
      cases h
      exact .inl ⟨rfl, rfl⟩
    · rcases decode_error_cases hvs h with ⟨n, hn, hv, he⟩ | hmarker | ⟨c, ss, hlen, hv, he⟩
      · exact .inr (.inl ⟨n, hv, hn, he⟩)
      · exact .inr (.inr (.inl hmarker))
      · exact .inr (.inr (.inr ⟨c, ss, hv, hlen, he⟩))
  · rintro (⟨rfl, rfl⟩ | ⟨n, rfl, hn, rfl⟩ | ⟨rfl, rfl⟩ | ⟨c, ss, rfl, hlen, rfl⟩)
    · exact decode_nil
    · exact decode_run_alone hn
    · exact decode_marker_alone
    · exact decode_lit_short hlen

/-! ### Streams of tokens -/

/-- A token has an encoding: its elements. -/
theorem encode_of_isToken {i : Instr} (h : i.isToken = true) : encode i = some (elementsOf i) := by
  cases i with
  | lit | run => rfl
  | encReset | encSym | encEnd | decReset | decElem | decEnd => cases h

/-- A well-formed token in front of a well-formed stream is the first of its tokens. -/
theorem tokens_elementsOf_append {k : Instr} (hwf : k.wf = true) (htoken : k.isToken = true) {vs : List Byte}
    {ks : List Instr} (h : tokens vs = .ok ks) : tokens (elementsOf k ++ vs) = .ok (k :: ks) := by
  rw [tokens_of_decode (decodeInvertsEncode k _ vs hwf (encode_of_isToken htoken)), h]

/-- Settles O48, by induction on the list of tokens. -/
theorem streamSplitsInOneWay : Obligations.StreamSplitsInOneWay := by
  intro ks hks
  induction ks with
  | nil => rfl
  | cons k ks ih =>
    obtain ⟨⟨hwf, htoken⟩, htail⟩ := List.forall_mem_cons.mp hks
    exact tokens_elementsOf_append hwf htoken (ih htail)

/-! ### Opcode-table words -/

/-- A table word means the token its bytes begin with. -/
theorem decode_tableBytes_of_decodeTableWord {nbits w : Nat} {i : Instr} (h : decodeTableWord nbits w = some i) :
    ∃ rest, decode (tableBytes nbits w) = .ok (i, rest) := by
  unfold decodeTableWord at h
  split at h
  case h_1 k rest hd =>
    cases h
    exact ⟨rest, hd⟩
  case h_2 => cases h

end Sys2Proof

namespace Sys2Proof.Machine

/-- A token turn takes the elements of the token that stands at the front of `DEC.in`, whatever items follow them. -/
theorem fetchDecToken_of_elementsOf {i : Instr} (hd : decode (elementsOf i) = .ok (i, [])) {s : State} {xs : List Item}
    (hin : s.decIn = items (elementsOf i) ++ xs) : fetchDecToken s = (some i, { s with decIn := xs }) := by
  have hfront : decode (leadingElements s.decIn) = .ok (i, leadingElements xs) := by
    rw [hin, leadingElements_items_append]
    exact decode_append hd _
  rw [fetchDecToken_of_ok hfront, hin, List.drop_left' (items_length _)]

/-- A token loaded at the front of `DEC.in` is what the next step runs, on the state before it was loaded. -/
theorem step_loadToken {i : Instr} (hd : decode (elementsOf i) = .ok (i, [])) (s : State) :
    step (loadToken i s) = exec i s :=
  step_of_fetch_some rfl (fetchDecToken_of_elementsOf hd rfl)

theorem withFetchWord_of_decodeTableWord {nbits w : Nat} {i : Instr} (h : decodeTableWord nbits w = some i) (s : State) :
    s.withFetchWord nbits w = loadToken i s := by
  rw [State.withFetchWord, h]

/-- Settles O58: the word's instruction is a decoded token, and the step after it is loaded runs it. -/
theorem fetchWordRunsThatInstruction : Obligations.FetchWordRunsThatInstruction := by
  intro s nbits w i h
  obtain ⟨rest, hd⟩ := decode_tableBytes_of_decodeTableWord h
  rw [withFetchWord_of_decodeTableWord h]
  exact step_loadToken (decode_elementsOf hd) s

end Sys2Proof.Machine

/-! # Proofs: the encoder (40_encoder.md)

Each case of P97 run on a state (O17, O18, O19, O21, O22, O23), what is emitted over all of them (O24, O25), ENC's reset
and the end of a call (O26, O27, O28, O29), a whole call from any state with ENC idle (O31), and that no instruction is
stuck where the invariant holds (O52). -/

namespace Sys2Proof.Machine

/-! ### One `ENC.SYM` -/

/-- The relation of a step says what the step does to the machine. -/
theorem EncSymStep.exec_eq {b : Byte} {s : State} {e' : EncState} {out : List Byte} (h : EncSymStep b s.enc e' out)
    (hinv : s.enc.Inv) : exec (.encSym b) s = .next { s with enc := e', encOut := s.encOut ++ items out } := by
  rw [exec_encSym_eq hinv b, State.afterSym, h.afterSym_eq]

/-- A step that emits nothing touches ENC's registers alone. -/
theorem EncSymStep.exec_eq_of_silent {b : Byte} {s : State} {e' : EncState} (h : EncSymStep b s.enc e' [])
    (hinv : s.enc.Inv) : exec (.encSym b) s = .next { s with enc := e' } := by
  simpa using h.exec_eq hinv

/-- The first symbol of a queue is written at entry 0 (rule R24). -/
theorem EncState.pushed_of_empty_queue {e : EncState} (h : e.qLen = 0) (b : Byte) :
    e.pushed b = { pv := true, pat := b, rl := 0, qMem := queueWrite e.qMem 0 b, qLen := 1 } := by
  simp [EncState.pushed, h, countOf]

theorem matchesPat_of_ne {e : EncState} {b : Byte} (h : b ≠ e.pat) : e.matchesPat b = false :=
  matchesPat_eq_false_iff.mpr (.inr h)

/-- Settles O17: without a pattern there is no run and no queue, so the symbol is appended and nothing flushed. -/
theorem encFirstSymbolIsQueued : Obligations.EncFirstSymbolIsQueued := by
  intro b s hinv hpv
  obtain ⟨hr, hq⟩ := hinv.none_idle hpv
  have hstep : EncSymStep b s.enc (s.enc.pushed b) [] :=
    .append (matchesPat_eq_false_iff.mpr (.inl hpv)) (by rw [hq]; decide) hr
  rw [hstep.exec_eq_of_silent hinv, EncState.pushed_of_empty_queue hq]

/-- Settles O18: with a run the queue is empty and the run is emitted first; without one the symbol is appended. -/
theorem encMismatchFlushesRun : Obligations.EncMismatchFlushesRun := by
  intro b s hinv _ hne
  have hm := matchesPat_of_ne hne
  refine ⟨fun hr => ?_, fun hr hq => (EncSymStep.append hm hq hr).exec_eq_of_silent hinv⟩
  have hq := hinv.run_xor_queue hr
  refine ⟨?_, hinv.rl_le, ?_⟩
  · bv_omega
  · rw [(EncSymStep.endRun hm hq hr).exec_eq hinv, EncState.pushed_of_empty_queue hq]
    rfl

/-- Settles O19: the full queue is emitted, and the symbol is the first of an empty one. -/
theorem encMismatchFlushesFullQueue : Obligations.EncMismatchFlushesFullQueue := by
  intro b s hinv hne hq
  rw [(EncSymStep.makeRoom (matchesPat_of_ne hne) hq).exec_eq hinv, EncState.pushed_of_empty_queue rfl, hq]
  rfl

/-- Settles O21: a match with two or more symbols queued is the literal flush's own case. -/
theorem encMatchFlushesLiteral : Obligations.EncMatchFlushesLiteral :=
  fun _ _ hinv hm hq => (EncSymStep.flushQueue hm hq).exec_eq hinv

/-- Settles O22: the one queued symbol is the pattern, which is the symbol that matches. -/
theorem encMatchReclassifiesSingleSymbol : Obligations.EncMatchReclassifiesSingleSymbol := by
  intro b s hinv hm hq
  have hne : s.enc.qLen ≠ 0 := by rw [hq]; decide
  refine ⟨?_, hinv.rl_of_queue hne, (EncSymStep.reclassify hm hq).exec_eq_of_silent hinv⟩
  rw [hinv.queue_of_single hq, (matchesPat_iff.mp hm).2]

/-- Settles O23: the 254 flush fires from a count of 253 and from no smaller one. -/
theorem encMatchContinuesRun : Obligations.EncMatchContinuesRun := by
  intro b s hinv hm hq
  have hle := hinv.rl_le
  refine ⟨hle, ?_⟩
  split
  · rename_i hr
    exact (EncSymStep.splitRun hm hq hr).exec_eq hinv
  · rename_i hr
    exact (EncSymStep.lengthenRun hm hq (by bv_omega)).exec_eq_of_silent hinv

/-! ### What an `ENC.SYM` emits -/

/-- Every match step empties the queue and leaves the pattern. -/
theorem EncSymStep.of_match {b : Byte} {e e' : EncState} {out : List Byte} (h : EncSymStep b e e' out)
    (hm : e.matchesPat b = true) : e'.pv = true ∧ e'.pat = e.pat ∧ e'.qLen = 0 := by
  have hpv := (matchesPat_iff.mp hm).1
  cases h with
  | flushQueue | reclassify => exact ⟨hpv, rfl, rfl⟩
  | lengthenRun _ hq | splitRun _ hq => exact ⟨hpv, rfl, hq⟩
  | endRun hn | makeRoom hn | append hn => simp [hm] at hn

/-- A match step ends with a count of 0 exactly if the 254 flush fired (rule R104). -/
theorem EncSymStep.rl_eq_zero_iff {b : Byte} {e e' : EncState} {out : List Byte} (h : EncSymStep b e e' out)
    (hinv : e.Inv) (hm : e.matchesPat b = true) : e'.rl = 0 ↔ e.rl = 253 := by
  obtain ⟨hpv, -, hq'⟩ := h.of_match hm
  have hq : e.rl = 253 → e.qLen = 0 := fun hr => hinv.run_xor_queue (by rw [hr]; decide)
  have hzero := h.zero_run_iff
  exact ⟨fun hr => (hzero.mp ⟨hpv, hr, hq'⟩).2.2, fun hr => (hzero.mpr ⟨hm, hq hr, hr⟩).2.1⟩

/-- A match step emits a run of 254 exactly if the 254 flush fired (rule R104): the only other token is a literal block. -/
theorem EncSymStep.out_eq_split_iff {b : Byte} {e e' : EncState} {out : List Byte} (h : EncSymStep b e e' out)
    (hinv : e.Inv) (hm : e.matchesPat b = true) : out = runElements Config.maxRun e.pat ↔ e.rl = 253 := by
  cases h with
  | flushQueue _ hq =>
    have hr : e.rl = 0 := hinv.rl_of_queue fun h0 => by simp [h0] at hq
    exact iff_of_false (fun h0 => absurd (List.cons.inj h0).1 (by decide)) (by rw [hr]; decide)
  | reclassify _ hq =>
    have hr : e.rl = 0 := hinv.rl_of_queue (by rw [hq]; decide)
    exact iff_of_false (List.cons_ne_nil _ _).symm (by rw [hr]; decide)
  | lengthenRun _ _ hr => exact iff_of_false (List.cons_ne_nil _ _).symm fun h253 => by simp [h253] at hr
  | splitRun _ _ hr => exact iff_of_true rfl hr
  | endRun hn | makeRoom hn | append hn => simp [hm] at hn

/-- Elements are told apart as items. -/
theorem items_inj {vs ws : List Byte} : items vs = items ws ↔ vs = ws :=
  List.map_inj_right fun _ _ => Item.elem.inj

/-- Settles O24: output and count both say whether the 254 flush fired. -/
theorem encRunIsSplitExactlyAt254 : Obligations.EncRunIsSplitExactlyAt254 := by
  intro b s t hinv hm hexec
  obtain ⟨e', out, hstep, hnext⟩ := exec_encSym_steps hinv b
  obtain rfl := Host.Outcome.next.inj (hnext.symm.trans hexec)
  refine ⟨?_, hstep.rl_eq_zero_iff hinv hm, hstep.of_match hm⟩
  calc s.encOut ++ items out = s.encOut ++ items (runElements Config.maxRun s.enc.pat)
      ↔ out = runElements Config.maxRun s.enc.pat := List.append_right_inj _ |>.trans items_inj
    _ ↔ s.enc.rl = 253 := hstep.out_eq_split_iff hinv hm

/-- The three forms of what a step emits (rule R106). -/
theorem EncSymStep.out_cases {b : Byte} {e e' : EncState} {out : List Byte} (h : EncSymStep b e e' out)
    (hinv : e.Inv) : out = [] ∨ (∃ n, 1 ≤ n.toNat ∧ n.toNat ≤ 254 ∧ out = runElements n e.pat) ∨
      (2 ≤ e.qLen.toNat ∧ out = litElements e.qLen e.queue) := by
  have hle := hinv.rl_le
  cases h with
  | flushQueue _ hq => exact .inr (.inr ⟨hq, rfl⟩)
  | reclassify | lengthenRun | append => exact .inl rfl
  | splitRun => exact .inr (.inl ⟨Config.maxRun, by decide, by decide, rfl⟩)
  | endRun _ _ hr => exact .inr (.inl ⟨e.rl, by bv_omega, by omega, rfl⟩)
  | makeRoom _ hq => exact .inr (.inr ⟨by rw [hq]; decide, rfl⟩)

/-- Settles O25: each form of what a step emits is no token or one token. -/
theorem encSymEmitsAtMostOneToken : Obligations.EncSymEmitsAtMostOneToken := by
  intro b s hinv
  obtain ⟨e', out, hstep, hexec⟩ := exec_encSym_steps hinv b
  rcases hstep.out_cases hinv with rfl | ⟨n, hpos, hmax, rfl⟩ | ⟨htwo, rfl⟩
  · exact ⟨_, [], hexec, rfl, .inl rfl, by simp⟩
  · exact ⟨_, [.run n s.enc.pat], hexec, rfl, .inr (.inl ⟨n, _, rfl, hpos, hmax⟩), by simp [elementsOf, encode]⟩
  · have hlen := s.enc.queue_length
    refine ⟨_, [.lit s.enc.qLen s.enc.queue], hexec, ?_, .inr (.inr ⟨_, _, rfl, hlen, htwo⟩), ?_⟩
    · simp [elementsOf, encode, litElements, items]
    · have hlt := s.enc.qLen.isLt
      simp only [List.flatMap_singleton, elementsOf, encode, Option.getD_some, List.length_cons, hlen]
      omega

/-! ### Reset and the end of a call -/

/-- Settles O26: the free values drawn are the ones asked for. -/
theorem encResetDiscardsPending : Obligations.EncResetDiscardsPending := fun _ => ⟨_, _, rfl⟩

theorem EncState.lastToken_of_none {e : EncState} (h : e.pv = false) (zeroRun : Bool) : e.lastToken zeroRun = [] :=
  if_pos h

theorem EncState.lastToken_of_queue {e : EncState} (hpv : e.pv = true) (hq : e.qLen ≠ 0) (zeroRun : Bool) :
    e.lastToken zeroRun = litElements e.qLen e.queue := by
  rw [EncState.lastToken, if_neg (by simp [hpv]), if_pos hq]

theorem EncState.lastToken_of_empty_queue {e : EncState} (hpv : e.pv = true) (hq : e.qLen = 0) (zeroRun : Bool) :
    e.lastToken zeroRun = if e.rl ≠ 0 ∨ zeroRun = true then runElements e.rl e.pat else [] := by
  simp [EncState.lastToken, hpv, hq]

/-- A call ends with its last token and the end mark, and leaves the reset values (rule R114). -/
theorem encFinish_of_lastToken {zeroRun : Bool} {s : State} {out : List Byte} (h : s.enc.lastToken zeroRun = out) :
    ∃ (p : Byte) (m : Vector Byte queueCapacity), encFinish zeroRun s = .next
      { s with enc := { pv := false, pat := p, rl := 0, qMem := m, qLen := 0 },
               encOut := s.encOut ++ (items out ++ [.eos]), encDraws := s.encDraws + 1 } :=
  ⟨_, _, h ▸ encFinish_eq zeroRun s⟩

/-- Settles O27: there is no last token. -/
theorem encEndOfEmptyCall : Obligations.EncEndOfEmptyCall :=
  fun _ hpv => encFinish_of_lastToken (EncState.lastToken_of_none hpv _)

/-- Settles O28: the last token is the queue as a literal block. -/
theorem encEndEmitsTerminalLiteral : Obligations.EncEndEmitsTerminalLiteral := by
  intro s hpv hq
  simp only [List.append_assoc]
  exact encFinish_of_lastToken (EncState.lastToken_of_queue hpv hq _)

/-- Settles O29: `EMIT_ZERO_RUN` matters for a zero-length run alone. -/
theorem encEndEmitsTerminalRun : Obligations.EncEndEmitsTerminalRun := by
  intro s hpv hq
  have hlast := EncState.lastToken_of_empty_queue hpv hq
  refine ⟨encFinish_of_lastToken ((hlast true).trans (if_pos (.inr rfl))), ?_⟩
  split
  · rename_i hr
    exact encFinish_of_lastToken ((hlast false).trans (if_neg (by simp [hr])))
  · rename_i hr
    exact encFinish_of_lastToken ((hlast false).trans (if_pos (.inl hr)))

/-! ### A whole call -/

/-- A call on one more symbol in front is that symbol's step and the rest of the call. -/
theorem encCall_cons (zeroRun : Bool) (b : Byte) (bs : List Byte) (s : State) :
    encCall zeroRun (b :: bs) s = andThen (exec (.encSym b) s) (encCall zeroRun bs) :=
  andThen_assoc _ _ _

/-- What a call appends is fixed by the symbols and by ENC's registers at its start, and it leaves the reset values. -/
theorem encCall_appends (zeroRun : Bool) (bs : List Byte) {e : EncState} (h : e.Inv) :
    ∃ out, ∀ s : State, s.enc = e →
      encCall zeroRun bs s = .next (encReinit (s.putEnc (items out ++ [.eos]))) := by
  induction bs generalizing e with
  | nil => exact ⟨e.lastToken zeroRun, fun s hs => hs ▸ encFinish_eq zeroRun s⟩
  | cons b bs ih =>
    obtain ⟨out, hout⟩ := ih (h.afterSym b)
    refine ⟨(e.afterSym b).2 ++ out, ?_⟩
    rintro s rfl
    rw [encCall_cons, exec_encSym_eq h b, andThen_next, hout _ rfl]
    simp [State.afterSym, State.putEnc, encReinit]

theorem execAll_unobserving (is : List Instr) : Unobserving (execAll is) := by
  induction is with
  | nil => exact .next fun _ _ h => h
  | cons i is ih => exact (exec_unobserving i).andThen ih

theorem encCall_unobserving (zeroRun : Bool) (bs : List Byte) : Unobserving (encCall zeroRun bs) :=
  (execAll_unobserving (encSyms bs)).andThen (encFinish_unobserving zeroRun)

theorem SameOutcome.exists_next {s : State} {r : Result} (h : SameOutcome (.next s) r) : ∃ t, r = .next t ∧ s.Same t := by
  cases h with
  | next hst => exact ⟨_, rfl, hst⟩

/-- `pack` is the elements a call from the machine's reset has appended. -/
theorem pack_of_call {zeroRun : Bool} {bs : List Byte} {t : State} (h : encCall zeroRun bs .reset = .next t) :
    pack zeroRun bs = elements t.encOut := by
  rw [pack, h]

/-- The machine's reset state with other registers in ENC, idle ones, is the same to the caller. -/
theorem EncState.Idle.same_reset {e : EncState} (h : e.Idle) : (State.reset.setEnc e).Same .reset :=
  ⟨h.same ⟨rfl, rfl, rfl⟩, .of_phase rfl (.inl rfl), rfl, rfl, rfl, rfl, rfl, rfl⟩

/-- From idle registers a call appends `pack` and the end mark: it does not observe in what they differ from those of the
machine's reset. -/
theorem encCall_of_idle (zeroRun : Bool) (bs : List Byte) {s : State} (h : s.enc.Idle) :
    encCall zeroRun bs s = .next (encReinit (s.putEnc (items (pack zeroRun bs) ++ [.eos]))) := by
  obtain ⟨out, hout⟩ := encCall_appends zeroRun bs h.inv
  have hsame := encCall_unobserving zeroRun bs _ _ h.same_reset
  rw [hout (State.reset.setEnc s.enc) rfl] at hsame
  obtain ⟨t, ht, hst⟩ := hsame.exists_next
  have hpack : pack zeroRun bs = out := by
    rw [pack_of_call ht, ← hst.encOut]
    simp [State.reset]
  rw [hpack, hout s rfl]

/-- The events of a call are the call with the hardware's `EMIT_ZERO_RUN`. -/
theorem execAll_encCall (bs : List Byte) (s : State) : execAll (encSyms bs ++ [.encEnd]) s = encCall true bs s := by
  rw [execAll_append, encCall]
  congr 1
  funext t
  show andThen (encFinish Config.emitZeroRun t) (execAll []) = encFinish true t
  rw [encFinish_eq, andThen_next]
  exact (encFinish_eq true t).symm

/-- Settles O31: what ENC's idle registers hold beyond the reset values is not observed, and ENC reads no output. -/
theorem packCallIndependentOfHistory : Obligations.PackCallIndependentOfHistory := by
  intro zeroRun bs s hidle
  refine ⟨⟨_, encCall_of_idle zeroRun bs hidle, encReinit_idle _, ?_⟩, execAll_encCall bs s⟩
  rw [List.append_assoc]
  rfl

/-! ### Every instruction -/

/-- Settles O52: the one stop needs a run without a pattern, which the invariant excludes. -/
theorem everyInstructionCompletes : Obligations.EveryInstructionCompletes := by
  intro i s hinv
  obtain ⟨t, ht⟩ := exec_completes (i := i) (s := s) fun ⟨_, hpv, hr⟩ => hr (hinv.enc.none_idle hpv).1
  exact ⟨t, ht, exec_keeps_inv ht hinv⟩

end Sys2Proof.Machine

/-! # Proofs: the decoder (41_decoder.md)

One `DEC.ELEM` in each phase (O1, O2, O3, O4, O5), one `DEC.END` in each phase (O6, O7), DEC's reset (O9) and what
`FAULT` ignores (O8). The tokens' big steps (O12, O13), whole calls on a well-formed stream (O14) and on a truncated one
(O16), and that a token turn is as many item turns as the token has elements (O59). -/

namespace Sys2Proof.Machine

/-! ### Elements touch DEC's registers and output alone -/

/-- One `DEC.ELEM` as one record update. -/
theorem exec_decElem_eq {v : Byte} {s : State} {d : DecState} {out : List Item} (hdec : (takeElement v s).dec = d)
    (hout : (takeElement v s).decOut = out) : exec (.decElem v) s = .next { s with dec := d, decOut := out } := by
  subst hdec hout
  exact congrArg Host.Outcome.next (takeElement_frame v s)

theorem takeElements_frame (vs : List Byte) (s : State) :
    takeElements vs s = { s with dec := (takeElements vs s).dec, decOut := (takeElements vs s).decOut } := by
  induction vs generalizing s with
  | nil => rfl
  | cons v vs ih =>
    rw [takeElements_cons]
    refine (ih _).trans ?_
    rw [takeElement_frame v s]

/-- Elements as one record update. -/
theorem takeElements_eq {vs : List Byte} {s : State} {d : DecState} {out : List Item}
    (hdec : (takeElements vs s).dec = d) (hout : (takeElements vs s).decOut = out) :
    takeElements vs s = { s with dec := d, decOut := out } := by
  subst hdec hout
  exact takeElements_frame vs s

/-- No element writes `fphase`: it is written by the exception and by a re-initialisation alone (rule R36). -/
theorem takeElement_fphase (v : Byte) (s : State) : (takeElement v s).dec.fphase = s.dec.fphase := by
  match hp : s.dec.phase with
  | .head =>
    by_cases hv : v = Config.marker
    · rw [hv, takeElement_marker hp]
    · rw [takeElement_length hp hv]
  | .sym => rw [takeElement_symbol hp]
  | .count => rw [takeElement_count hp]; split <;> rfl
  | .body => rw [takeElement_body hp]
  | .fault => rw [takeElement_fault hp]

theorem takeElements_fphase (vs : List Byte) (s : State) : (takeElements vs s).dec.fphase = s.dec.fphase := by
  induction vs generalizing s with
  | nil => rfl
  | cons v vs ih => exact (ih _).trans (takeElement_fphase v s)

/-- In `FAULT` elements are ignored. -/
theorem takeElements_fault (vs : List Byte) {s : State} (h : s.dec.phase = .fault) : takeElements vs s = s := by
  induction vs with
  | nil => rfl
  | cons v vs ih => rw [takeElements_cons, takeElement_fault h, ih]

/-! ### One element -/

/-- Settles O1: the case of a length byte in `HEAD`. -/
theorem decElemInHeadLatchesRunLength : Obligations.DecElemInHeadLatchesRunLength :=
  fun v _ h hv => exec_decElem_eq (takeElement_length h hv) (takeElement_head_decOut h v)

/-- Settles O2: the case of the marker in `HEAD`. -/
theorem decElemInHeadTakesMarker : Obligations.DecElemInHeadTakesMarker :=
  fun _ h => exec_decElem_eq (takeElement_marker h) (takeElement_head_decOut h Config.marker)

/-- Settles O3: the items of a run's symbols are copies of one item. -/
theorem decElemInSymExpandsRun : Obligations.DecElemInSymExpandsRun := by
  intro v s h
  have hout := takeElement_symbol_decOut h v
  rw [runSymbols, items, List.map_replicate] at hout
  exact exec_decElem_eq (takeElement_symbol h v) hout

/-- Settles O4: the case of `COUNT`, which itself asks whether the count is 0. -/
theorem decElemInCountLatchesLiteralCount : Obligations.DecElemInCountLatchesLiteralCount :=
  fun v _ h => exec_decElem_eq (takeElement_count h v) (takeElement_count_decOut h v)

/-- Settles O5: a count that is not 0 is one more than its predecessor, which is 0 for a count of 1 alone. -/
theorem decElemInBodyCopiesSymbol : Obligations.DecElemInBodyCopiesSymbol := by
  intro v s h hinv
  have hpos := hinv.body_pos h
  have hlast : s.dec.cnt - 1 = 0 ↔ s.dec.cnt = 1 := sub_eq_zero
  refine ⟨?_, by bv_omega⟩
  rw [exec_decElem_eq (takeElement_body h v) (takeElement_body_decOut h v)]
  simp only [hlast]
  rfl

/-! ### The end of a call, the exception, and reset -/

/-- `DEC.END` between tokens (rule R131). -/
theorem exec_decEnd_of_head {s : State} (h : s.dec.phase = .head) :
    exec .decEnd s = .next (decReinit (s.putDec [.eos])) := by
  simp [exec, execDecEnd, h]

/-- `DEC.END` inside a token (rule R132). -/
theorem exec_decEnd_inside {s : State} (hhead : s.dec.phase ≠ .head) (hfault : s.dec.phase ≠ .fault) :
    exec .decEnd s = .next (raiseMalformedStream s) := by
  rcases execDecEnd_cases s with ⟨h, -⟩ | ⟨-, -, h⟩ | ⟨h, -⟩
  · exact absurd h hhead
  · exact h
  · exact absurd h hfault

/-- `DEC.END` in `FAULT` (rule R133). -/
theorem exec_decEnd_of_fault {s : State} (h : s.dec.phase = .fault) : exec .decEnd s = .next s := by
  simp [exec, execDecEnd, h]

/-- Settles O6: the value of `fphase` is the one drawn. -/
theorem decEndInHeadCompletesCall : Obligations.DecEndInHeadCompletesCall :=
  fun _ h => ⟨_, exec_decEnd_of_head h⟩

/-- Settles O7: the code saved is that of the phase, by the phases inside a token. -/
theorem decEndInsideTokenTakesMalformedStream : Obligations.DecEndInsideTokenTakesMalformedStream := by
  rintro s p rfl hhead hfault
  rw [exec_decEnd_inside hhead hfault, raiseMalformedStream, State.setDec]
  match hp : s.dec.phase with
  | .head => exact absurd hp hhead
  | .sym | .count | .body => rfl
  | .fault => exact absurd hp hfault

/-- Settles O9: the value of `fphase` is the one drawn. -/
theorem decResetInstallsInitialValues : Obligations.DecResetInstallsInitialValues := fun _ => ⟨_, rfl⟩

/-- Settles O8: a token is its elements, and each is ignored. -/
theorem faultedDecIgnoresAllButReset : Obligations.FaultedDecIgnoresAllButReset :=
  fun _ v c n syms h =>
    ⟨congrArg Host.Outcome.next (takeElement_fault h), exec_decEnd_of_fault h,
      congrArg Host.Outcome.next (takeElements_fault (runElements n v) h),
      congrArg Host.Outcome.next (takeElements_fault (litElements c syms) h)⟩

/-! ### The count of a literal block -/

/-- Inside a literal block, the count and the symbols taken add up to the count before (rule R128). -/
theorem takeElements_body_cnt {s : State} (h : s.dec.phase = .body) (hpos : s.dec.cnt ≠ 0) {ss : List Byte}
    (hlen : ss.length ≤ countOf s.dec.cnt) :
    countOf (takeElements ss s).dec.cnt + ss.length = countOf s.dec.cnt := by
  induction ss using List.reverseRecOn with
  | nil => rfl
  | append_singleton ss v ih =>
    rw [List.length_append, List.length_singleton] at hlen ⊢
    have hlt : ss.length < countOf s.dec.cnt := hlen
    have hbody : (takeElements ss s).dec.phase = .body := by
      rw [takeElements_body_phase h hlt.le hpos, if_neg hlt.ne]
    have hsum := ih hlt.le
    rw [takeElements_append, takeElements_cons, takeElements_nil, takeElement_body hbody]
    simp only [countOf] at hsum hlt ⊢
    bv_omega

/-- From `HEAD`, a literal block that counts some symbols, complete or not: the count is how many are missing
(rule R34). -/
theorem takeElements_lit_cnt {s : State} (h : s.dec.phase = .head) {c : Byte} (hc : c ≠ 0) {ss : List Byte}
    (hlen : ss.length ≤ countOf c) :
    countOf (takeElements (litElements c ss) s).dec.cnt + ss.length = countOf c := by
  have hdec := takeElement_count (s := takeElement Config.marker s) (by rw [takeElement_marker h]) c
  rw [if_neg hc] at hdec
  have hcnt : (takeElement c (takeElement Config.marker s)).dec.cnt = c := by rw [hdec]
  have hsum := takeElements_body_cnt (by rw [hdec]) (by rwa [hcnt]) (by rwa [hcnt])
  rwa [hcnt] at hsum

/-! ### Tokens from `HEAD` (rule R134) -/

/-- A well-formed token decodes as the token it is. -/
theorem decode_elementsOf_of_wf {i : Instr} (hwf : i.wf = true) (htoken : i.isToken = true) :
    decode (elementsOf i) = .ok (i, []) :=
  decode_of_encode hwf (encode_of_isToken htoken)

/-- A token from `HEAD` as one record update: only the count is left to say. -/
theorem exec_token_of_head {i : Instr} (hd : decode (elementsOf i) = .ok (i, [])) {s : State} (h : s.dec.phase = .head)
    {n : Byte} (hcnt : (takeElements (elementsOf i) s).dec.cnt = n) :
    exec i s = .next { s with dec := { s.dec with cnt := n }, decOut := s.decOut ++ items (sem i) } := by
  obtain ⟨hphase, hout⟩ := takeElements_elementsOf hd h
  have hdec : (takeElements (elementsOf i) s).dec = { s.dec with cnt := n } :=
    calc (takeElements (elementsOf i) s).dec
      _ = ⟨(takeElements (elementsOf i) s).dec.phase, (takeElements (elementsOf i) s).dec.cnt,
            (takeElements (elementsOf i) s).dec.fphase⟩ := rfl
      _ = ⟨s.dec.phase, n, s.dec.fphase⟩ := by rw [hphase, hcnt, takeElements_fphase, h]
  rw [exec_decoded hd, takeElements_eq hdec hout]

/-- Settles O12: the run length is latched and not counted down. -/
theorem runTokenBigStep : Obligations.RunTokenBigStep := by
  intro n sym s hwf h
  have hlength := takeElement_length h (run_wf_iff.mp hwf)
  have hcnt : (takeElements (elementsOf (.run n sym)) s).dec.cnt = n := by
    show (takeElement sym (takeElement n s)).dec.cnt = n
    rw [takeElement_symbol (by rw [hlength]), hlength]
  rw [exec_token_of_head (decode_elementsOf_of_wf hwf rfl) h hcnt, sem, items, List.map_replicate]
  rfl

/-- Settles O13: a block that counts no symbol writes no count, and any other counts down to 0. -/
theorem litTokenBigStep : Obligations.LitTokenBigStep := by
  intro c syms s hwf h
  have hlen : syms.length = countOf c := lit_wf_iff.mp hwf
  refine exec_token_of_head (decode_elementsOf_of_wf hwf rfl) h ?_
  show (takeElements (litElements c syms) s).dec.cnt = _
  split
  · rename_i hc
    subst hc
    obtain rfl : syms = [] := List.length_eq_zero_iff.mp hlen
    show (takeElement 0 (takeElement Config.marker s)).dec.cnt = _
    rw [takeElement_count (by rw [takeElement_marker h]), if_pos rfl, takeElement_marker h]
  · rename_i hc
    have hsum := takeElements_lit_cnt h hc hlen.le
    have hzero : countOf (takeElements (litElements c syms) s).dec.cnt = 0 := by omega
    exact BitVec.eq_of_toNat_eq hzero

/-! ### Whole calls -/

/-- An `unpack` call is DEC taking the elements, then `DEC.END`. -/
theorem decCall_eq (vs : List Byte) (s : State) : decCall vs s = exec .decEnd (takeElements vs s) := by
  rw [decCall, execAll_append, execAll_decElems, andThen_next, execAll_cons]
  cases exec .decEnd (takeElements vs s) <;> rfl

/-- Settles O14: the elements lead from `HEAD` to `HEAD` (by induction along the stream's tokens, in
`takeElements_wellFormed`), where `DEC.END` completes. -/
theorem unpackCallDecodesEveryWellFormedStream : Obligations.UnpackCallDecodesEveryWellFormedStream := by
  intro vs bs s h hvs
  obtain ⟨hphase, hout⟩ := takeElements_wellFormed hvs h
  refine ⟨Config.freeFphase s.decDraws, ?_⟩
  rw [decCall_eq, exec_decEnd_of_head hphase, takeElements_eq rfl hout]
  rfl

/-- The registers that tell how a token was cut short (rule R162): its missing part by the phase, and the count with
it. -/
theorem takeElements_incomplete_dec {q : List Byte} {e : DecodeError} (hq : q ≠ []) (hd : decode q = .error e)
    {s : State} (h : s.dec.phase = .head) :
    (∃ n, q = [n] ∧ n ≠ Config.marker ∧ e = .runSymbolMissing ∧
      (takeElements q s).dec.phase = .sym ∧ (takeElements q s).dec.cnt = n) ∨
    (q = [Config.marker] ∧ e = .litCountMissing ∧ (takeElements q s).dec.phase = .count) ∨
    (∃ c ss, q = Config.marker :: c :: ss ∧ ss.length < countOf c ∧ e = .litSymbolsMissing ∧
      (takeElements q s).dec.phase = .body ∧ countOf (takeElements q s).dec.cnt + ss.length = countOf c) := by
  have hphase := takeElements_phase q h
  rw [tokens_of_decode_error hq hd] at hphase
  rcases decode_error_cases hq hd with ⟨n, hn, rfl, rfl⟩ | ⟨rfl, rfl⟩ | ⟨c, ss, hlen, rfl, rfl⟩
  · exact .inl ⟨n, rfl, hn, rfl, hphase, congrArg DecState.cnt (takeElement_length h hn)⟩
  · exact .inr (.inl ⟨rfl, rfl, hphase⟩)
  · have hc : c ≠ 0 := fun h0 => Nat.not_lt_zero _ (h0 ▸ hlen)
    exact .inr (.inr ⟨c, ss, rfl, hlen, rfl, hphase, takeElements_lit_cnt h hc hlen.le⟩)

/-- The symbols of an unfinished token that did arrive: only a block has any. -/
theorem drop_two_of_incomplete {q : List Byte} {e : DecodeError} (hq : q ≠ []) (hd : decode q = .error e) :
    q.drop 2 = if e = .litSymbolsMissing then q.drop 2 else [] := by
  rcases decode_error_cases hq hd with ⟨n, -, rfl, rfl⟩ | ⟨rfl, rfl⟩ | ⟨c, ss, -, rfl, rfl⟩ <;> rfl

/-- Settles O16: the complete tokens lead to `HEAD`, the unfinished one leaves DEC inside it, and `DEC.END` saves that
phase. -/
theorem unpackCallOnTruncatedStreamFaults : Obligations.UnpackCallOnTruncatedStreamFaults := by
  intro p q bs e s h hp hq hd
  obtain ⟨hhead, hout⟩ := takeElements_wellFormed hp h
  obtain ⟨hinside, hout'⟩ := takeElements_incomplete hq hd hhead
  have hcases := takeElements_incomplete_dec hq hd hhead
  rw [← takeElements_append] at hinside hout' hcases
  rw [hout, List.append_assoc, ← items_append, drop_two_of_incomplete hq hd] at hout'
  have hnofault : (takeElements (p ++ q) s).dec.phase ≠ .fault := by
    rcases hcases with ⟨n, -, -, -, hphase, -⟩ | ⟨-, -, hphase⟩ | ⟨c, ss, -, -, -, hphase, -⟩ <;> simp [hphase]
  refine ⟨_, (decCall_eq _ s).trans (exec_decEnd_inside hinside hnofault), ?_, rfl, ?_⟩
  · rw [raiseMalformedStream, takeElements_eq rfl hout']
    rfl
  · rw [raiseMalformedStream_dec]
    rcases hcases with ⟨n, hq', hn, he, hphase, hcnt⟩ | ⟨hq', he, hphase⟩ | ⟨c, ss, hq', hlen, he, hphase, hcnt⟩
    · exact .inl ⟨n, hq', hn, he, congrArg Phase.code hphase, hcnt⟩
    · exact .inr (.inl ⟨hq', he, congrArg Phase.code hphase⟩)
    · exact .inr (.inr ⟨c, ss, hq', hlen, he, congrArg Phase.code hphase, hcnt⟩)

/-! ### A token turn and its items -/

/-- Where a whole token stands at the front of `DEC.in`, its elements are the front of `DEC.in`. -/
theorem decIn_of_decode {xs : List Item} {i : Instr} {after : List Byte}
    (hd : decode (leadingElements xs) = .ok (i, after)) : ∃ ys, xs = items (elementsOf i) ++ ys := by
  obtain ⟨ys, hys, -⟩ := leadingElements_split xs
  refine ⟨items after ++ ys, ?_⟩
  rw [← List.append_assoc, ← items_append, ← decode_ok_elementsOf hd]
  exact hys

/-- Turns of DEC alone take the elements at the front of its input, whatever the rest `u` of the machine holds. -/
theorem stepN_decElems {vs : List Byte} {u : State} {rest : List Turn} {r : List Item}
    (hturns : u.turns = List.replicate vs.length .decItem ++ rest) (hin : u.decIn = items vs ++ r) (s : State) :
    stepN vs.length (u.withDec s) =
      .next (State.withDec { u with turns := rest, decIn := r } (takeElements vs s)) := by
  induction vs generalizing u s with
  | nil =>
    obtain rfl : u.turns = rest := hturns
    obtain rfl : u.decIn = r := hin
    rfl
  | cons v vs ih =>
    let w : State := { u with turns := List.replicate vs.length .decItem ++ rest, decIn := items vs ++ r }
    have hstep : step (u.withDec s) = .next (takeElement v (w.withDec s)) :=
      step_of_fetch_some (s := u.withDec s) hturns (fetchDecItem_of_elem hin)
    rw [List.length_cons, stepN_succ, hstep, andThen_next, takeElement_withDec, takeElements_cons]
    exact ih (u := w) rfl rfl (takeElement v s)

/-- Settles O59: both ways DEC takes the token's elements in order, whatever its phase, and both leave the same items
and turns. -/
theorem tokenStepRefinesElementSteps : Obligations.TokenStepRefinesElementSteps := by
  intro s i after rest hturns hd
  obtain ⟨ys, hin⟩ := decIn_of_decode hd
  have hfetch : fetch .decToken { s with turns := rest } = (some i, { s with turns := rest, decIn := ys }) :=
    fetchDecToken_of_elementsOf (decode_elementsOf hd) hin
  calc step s
    _ = .next (takeElements (elementsOf i) { s with turns := rest, decIn := ys }) := by
      rw [step_of_fetch_some hturns hfetch, exec_decoded hd]
    _ = .next (State.withDec { s with turns := rest, decIn := ys } (takeElements (elementsOf i) s)) := by
      rw [← takeElements_withDec]
      rfl
    _ = _ := (stepN_decElems
      (u := { s with turns := List.replicate (elementsOf i).length .decItem ++ rest }) rfl hin s).symm

end Sys2Proof.Machine

/-! # Proofs: properties of whole inputs (42_properties.md)

`pack` as a function on tokens: ENC by the shapes of rule R32, each with what it has pending (`Shape`), and the tokens a
call gives from there (`Shape.tokens`), which `pack_eq` and `tokens_pack` tie to the machine. From it the tokens' ranges
and how they meet (O39, O40), the sizes (O41) and the inputs of one form (O33, O34, O35, O36). The round trip (O32), the
decoding of a concatenation (O42) and of three streams to one symbol (O43). -/

namespace Sys2Proof.Machine

/-! ### ENC's shapes and the tokens of a call -/

/-- A RUN of length `n`. -/
def runToken (n : Nat) (x : Byte) : Instr := .run (BitVec.ofNat 8 n) x

/-- A LIT with the symbols `q`. -/
def blockToken (q : List Byte) : Instr := .lit (BitVec.ofNat 8 q.length) q

/-- The shapes of ENC's registers (rule R32), with what is pending. -/
inductive Shape where
  /-- No pattern. -/
  | idle
  /-- The pattern `x` with a run of length `n`, 0 right after a 254 flush. -/
  | run (x : Byte) (n : Nat)
  /-- The queue `q` and behind it `x`, the pattern. -/
  | literal (q : List Byte) (x : Byte)

/-- The shape of ENC's registers, a function of `pv`, `q_len` and `rl` (rule R32). -/
def EncState.shape (e : EncState) : Shape :=
  if e.pv = false then .idle
  else if e.qLen = 0 then .run e.pat e.rl.toNat
  else .literal e.queue.dropLast e.pat

/-- What `ENC.SYM(b)` makes of a shape, and the tokens it emits (P97). -/
def Shape.afterSym (b : Byte) : Shape → Shape × List Instr
  | .idle => (.literal [] b, [])
  | .run x n =>
    if b = x then if n = 253 then (.run x 0, [runToken 254 x]) else (.run x (n + 1), [])
    else (.literal [] b, if n = 0 then [] else [runToken n x])
  | .literal q x =>
    if b = x then if q = [] then (.run x 2, []) else (.run x 1, [blockToken (q ++ [x])])
    else if q.length = 254 then (.literal [] b, [blockToken (q ++ [x])])
    else (.literal (q ++ [x]) b, [])

/-- The tokens `ENC.END` emits (P110). -/
def Shape.lastToken (zeroRun : Bool) : Shape → List Instr
  | .idle => []
  | .run x n => if n ≠ 0 ∨ zeroRun = true then [runToken n x] else []
  | .literal q x => [blockToken (q ++ [x])]

/-- The tokens of the rest of a call, on the symbols still to come. -/
def Shape.tokens (zeroRun : Bool) : Shape → List Byte → List Instr
  | σ, [] => σ.lastToken zeroRun
  | σ, b :: bs => (σ.afterSym b).2 ++ (σ.afterSym b).1.tokens zeroRun bs

theorem Shape.tokens_nil (zeroRun : Bool) (σ : Shape) : σ.tokens zeroRun [] = σ.lastToken zeroRun := rfl

theorem Shape.tokens_cons (zeroRun : Bool) (σ : Shape) (b : Byte) (bs : List Byte) :
    σ.tokens zeroRun (b :: bs) = (σ.afterSym b).2 ++ (σ.afterSym b).1.tokens zeroRun bs := rfl

/-! ### The shapes stand for the registers -/

theorem EncState.shape_of_none {e : EncState} (h : e.pv = false) : e.shape = .idle := if_pos h

theorem EncState.shape_of_empty_queue {e : EncState} (hpv : e.pv = true) (hq : e.qLen = 0) :
    e.shape = .run e.pat e.rl.toNat := by
  rw [EncState.shape, if_neg (by simp [hpv]), if_pos hq]

theorem EncState.shape_of_queue {e : EncState} (hpv : e.pv = true) {q : List Byte} (h : e.queue = q ++ [e.pat]) :
    e.shape = .literal q e.pat := by
  have hq : e.qLen ≠ 0 := fun h0 => by simp [EncState.queue_eq_nil h0] at h
  rw [EncState.shape, if_neg (by simp [hpv]), if_neg hq, h, List.dropLast_concat]

theorem EncState.shape_pushed {e : EncState} (h : e.qLen ≠ 255) (b : Byte) : (e.pushed b).shape = .literal e.queue b :=
  EncState.shape_of_queue rfl (EncState.pushed_queue h b)

/-- A queue that is not empty is some symbols and the pattern, and the fill count says how many. -/
theorem EncState.Inv.exists_queue_eq {e : EncState} (h : e.Inv) (hq : e.qLen ≠ 0) :
    e.pv = true ∧ ∃ q, e.queue = q ++ [e.pat] ∧ e.qLen.toNat = q.length + 1 := by
  obtain ⟨hpv, hlast⟩ := h.queue_last hq
  obtain ⟨q, hq⟩ := List.getLast?_eq_some_iff.mp hlast
  exact ⟨hpv, q, hq, by rw [← EncState.queue_length, hq, List.length_append, List.length_singleton]⟩

theorem elementsOf_runToken (n : Byte) (x : Byte) : elementsOf (runToken n.toNat x) = runElements n x := by
  simp [runToken, elementsOf, encode, runElements]

/-- The queue as a token. -/
theorem EncState.elementsOf_blockToken {e : EncState} {q : List Byte} (h : e.queue = q) :
    elementsOf (blockToken q) = litElements e.qLen e.queue := by
  subst h
  simp [blockToken, elementsOf, encode, litElements]

/-- One `ENC.SYM` step goes from shape to shape and emits the tokens of the shape's step. -/
theorem EncSymStep.shape_eq {b : Byte} {e e' : EncState} {out : List Byte} (h : EncSymStep b e e' out) (hinv : e.Inv) :
    e'.shape = (e.shape.afterSym b).1 ∧ out = (e.shape.afterSym b).2.flatMap elementsOf := by
  cases h with
  | flushQueue hm hq =>
    obtain ⟨hpv, q, hqueue, hlen⟩ := hinv.exists_queue_eq fun h0 => by simp [h0] at hq
    obtain rfl := (matchesPat_iff.mp hm).2
    have hne : q ≠ [] := by
      rintro rfl
      rw [hlen] at hq
      exact absurd hq (by decide)
    rw [EncState.shape_of_queue hpv hqueue, EncState.shape_of_empty_queue (by exact hpv) rfl]
    simp [Shape.afterSym, hne, EncState.elementsOf_blockToken hqueue]
  | reclassify hm hq =>
    obtain ⟨hpv, q, hqueue, hlen⟩ := hinv.exists_queue_eq (by rw [hq]; decide)
    obtain rfl := (matchesPat_iff.mp hm).2
    obtain rfl : q = [] := by simpa [hq] using hlen
    rw [EncState.shape_of_queue hpv hqueue, EncState.shape_of_empty_queue (by exact hpv) rfl]
    simp [Shape.afterSym]
  | lengthenRun hm hq hr =>
    obtain ⟨hpv, rfl⟩ := matchesPat_iff.mp hm
    have hsucc : (e.rl + 1).toNat = e.rl.toNat + 1 := by bv_omega
    rw [EncState.shape_of_empty_queue hpv hq, EncState.shape_of_empty_queue (by exact hpv) (by exact hq),
      hsucc]
    simp [Shape.afterSym, hr.ne]
  | splitRun hm hq hr =>
    obtain ⟨hpv, rfl⟩ := matchesPat_iff.mp hm
    rw [EncState.shape_of_empty_queue hpv hq, EncState.shape_of_empty_queue (by exact hpv) (by exact hq)]
    simp [Shape.afterSym, hr, ← elementsOf_runToken, Config.maxRun]
  | endRun hm hq hr =>
    have hpv := hinv.pv_of_run hr
    have hne : b ≠ e.pat := fun h0 => by simp [matchesPat_iff.mpr ⟨hpv, h0⟩] at hm
    have hpos : e.rl.toNat ≠ 0 := by bv_omega
    rw [EncState.shape_of_empty_queue hpv hq, EncState.shape_pushed (by rw [hq]; decide), EncState.queue_eq_nil hq]
    simp [Shape.afterSym, hne, hpos, elementsOf_runToken]
  | makeRoom hm hq =>
    obtain ⟨hpv, q, hqueue, hlen⟩ := hinv.exists_queue_eq (by rw [hq]; decide)
    have hne : b ≠ e.pat := fun h0 => by simp [matchesPat_iff.mpr ⟨hpv, h0⟩] at hm
    have hfull : q.length = 254 := by simpa [hq] using hlen.symm
    rw [EncState.shape_of_queue hpv hqueue, EncState.shape_pushed (by simp), EncState.queue_eq_nil rfl]
    simp [Shape.afterSym, hne, hfull, EncState.elementsOf_blockToken hqueue]
  | append hm hq hr =>
    rw [EncState.shape_pushed hq]
    match hpv : e.pv with
    | false =>
      rw [EncState.shape_of_none hpv, EncState.queue_eq_nil (hinv.none_idle hpv).2]
      exact ⟨rfl, rfl⟩
    | true =>
      have hne : b ≠ e.pat := fun h0 => by simp [matchesPat_iff.mpr ⟨hpv, h0⟩] at hm
      by_cases hzero : e.qLen = 0
      · rw [EncState.shape_of_empty_queue hpv hzero, EncState.queue_eq_nil hzero]
        simp [Shape.afterSym, hne, hr]
      · obtain ⟨-, q, hqueue, hlen⟩ := hinv.exists_queue_eq hzero
        have hroom : q.length ≠ 254 := by bv_omega
        rw [EncState.shape_of_queue hpv hqueue, hqueue]
        simp [Shape.afterSym, hne, hroom]

/-- The last token of a call is that of the shape. -/
theorem EncState.Inv.lastToken_shape {e : EncState} (h : e.Inv) (zeroRun : Bool) :
    e.lastToken zeroRun = (e.shape.lastToken zeroRun).flatMap elementsOf := by
  match hpv : e.pv with
  | false =>
    rw [EncState.lastToken_of_none hpv, EncState.shape_of_none hpv]
    rfl
  | true =>
    by_cases hq : e.qLen = 0
    · have hpos : e.rl.toNat ≠ 0 ↔ e.rl ≠ 0 := by rw [Ne, Ne, BitVec.toNat_eq]; rfl
      rw [EncState.lastToken_of_empty_queue hpv hq, EncState.shape_of_empty_queue hpv hq]
      simp only [Shape.lastToken, hpos]
      split
      · simp [elementsOf_runToken]
      · rfl
    · obtain ⟨-, q, hqueue, -⟩ := h.exists_queue_eq hq
      rw [EncState.lastToken_of_queue hpv hq, EncState.shape_of_queue hpv hqueue]
      simp [Shape.lastToken, EncState.elementsOf_blockToken hqueue]

/-- A call appends the tokens that the shape of the registers gives on its symbols. -/
theorem encCall_of_shape (zeroRun : Bool) (bs : List Byte) {s : State} (h : s.enc.Inv) :
    encCall zeroRun bs s =
      .next (encReinit (s.putEnc (items ((s.enc.shape.tokens zeroRun bs).flatMap elementsOf) ++ [.eos]))) := by
  induction bs generalizing s with
  | nil =>
    rw [Shape.tokens_nil, ← h.lastToken_shape]
    exact encFinish_eq zeroRun s
  | cons b bs ih =>
    obtain ⟨e', out, hstep, hexec⟩ := exec_encSym_steps h b
    obtain ⟨hshape, hout⟩ := hstep.shape_eq h
    rw [encCall_cons, hexec, andThen_next, ih (by exact hstep.keeps_inv h), Shape.tokens_cons]
    simp [hshape, hout, State.putEnc, encReinit]

/-- `pack` is the elements of the tokens that the idle shape gives. -/
theorem pack_eq (zeroRun : Bool) (bs : List Byte) :
    pack zeroRun bs = (Shape.idle.tokens zeroRun bs).flatMap elementsOf := by
  rw [pack_of_call (encCall_of_shape zeroRun bs (EncState.Idle.inv ⟨rfl, rfl, rfl⟩))]
  simp [State.reset, EncState.shape_of_none (e := EncState.reset) rfl]

/-! ### The tokens of a call and how they meet -/

/-- What each token of `pack` is (rule R147): a RUN, or a LIT with symbols, no two neighbours of them equal. -/
inductive PackToken : Instr → Prop where
  | run {n x : Byte} (hn : n ≠ Config.marker) : PackToken (.run n x)
  | lit {c : Byte} {ss : List Byte} (hlen : ss.length = c.toNat) (hne : ss ≠ []) (hchain : ss.IsChain (· ≠ ·)) :
      PackToken (.lit c ss)

/-- How a token of `pack` and the next one meet (rule R148). -/
inductive Meets : Instr → Instr → Prop where
  /-- The 254 flush, and the rest of the same stretch of symbols, which may be nothing. -/
  | sameRun {n x : Byte} : Meets (.run 0xFE x) (.run n x)
  /-- A literal block ended by a match, and the run of its last symbol. -/
  | litRun {c : Byte} {ss : List Byte} {n x : Byte} (hc : c ≠ 1) (hlast : ss.getLast? = some x) (hn : n ≠ 0) :
      Meets (.lit c ss) (.run n x)
  /-- A run ended by another symbol. -/
  | otherAfterRun {n x y : Byte} {k : Instr} (hn : n ≠ 0) (hfirst : (sem k).head? = some y) (hne : y ≠ x) :
      Meets (.run n x) k
  /-- A full literal block, and another symbol. -/
  | otherAfterFull {ss : List Byte} {x y : Byte} {k : Instr} (hlast : ss.getLast? = some x)
      (hfirst : (sem k).head? = some y) (hne : y ≠ x) : Meets (.lit 255 ss) k

theorem runLength_eq_zero {n : Nat} (h : n < 256) : BitVec.ofNat 8 n = 0 ↔ n = 0 := by
  rw [BitVec.toNat_eq, BitVec.toNat_ofNat, Nat.mod_eq_of_lt h]
  rfl

theorem packToken_runToken {n : Nat} (h : n ≤ 254) (x : Byte) : PackToken (runToken n x) := by
  refine .run fun hn => ?_
  have hmod : n % 256 = 255 := congrArg BitVec.toNat hn
  omega

theorem packToken_blockToken {q : List Byte} (hlen : q.length ≤ 255) (hne : q ≠ []) (hchain : q.IsChain (· ≠ ·)) :
    PackToken (blockToken q) :=
  .lit (by rw [BitVec.toNat_ofNat, Nat.mod_eq_of_lt (by omega)]) hne hchain

/-- The bounds of what is pending (rules R28, R31, R118). -/
def Shape.Inv : Shape → Prop
  | .idle => True
  | .run _ n => n ≤ 253
  | .literal q x => q.length ≤ 254 ∧ (q ++ [x]).IsChain (· ≠ ·)

theorem Shape.inv_idle : Shape.idle.Inv := trivial

theorem Shape.Inv.afterSym {σ : Shape} (h : σ.Inv) (b : Byte) : (σ.afterSym b).1.Inv := by
  match σ with
  | .idle => simp [Shape.afterSym, Shape.Inv]
  | .run x n =>
    simp only [Shape.afterSym]
    split
    · split
      · exact Nat.zero_le _
      · exact Nat.lt_of_le_of_ne h ‹_›
    · simp [Shape.Inv]
  | .literal q x =>
    obtain ⟨hlen, hchain⟩ := h
    simp only [Shape.afterSym]
    split
    · split <;> simp [Shape.Inv]
    · rename_i hne
      split
      · simp [Shape.Inv]
      · rename_i hroom
        refine ⟨by rw [List.length_append, List.length_singleton]; omega, ?_⟩
        rw [List.append_assoc]
        exact List.isChain_append_cons_cons.mpr ⟨hchain, Ne.symm hne, .singleton b⟩

/-- What the first token from a shape can be. -/
def Shape.Begins : Shape → Instr → Prop
  | .idle, k => sem k ≠ []
  | .run x n, k => (∃ m, k = .run m x ∧ (n ≠ 0 → m ≠ 0)) ∨ (n = 0 ∧ ∃ y, (sem k).head? = some y ∧ y ≠ x)
  | .literal q x, k => (sem k).head? = (q ++ [x]).head?

/-- A step from `σ` to another shape, with what it emits, fits in a call: a token fits the shape before it and what can
follow from the shape after it; without one, what can follow fits the shape before. -/
inductive Shape.StepFits (σ : Shape) : Shape × List Instr → Prop where
  | silent {σ' : Shape} (hbegins : ∀ k, σ'.Begins k → σ.Begins k) : StepFits σ (σ', [])
  | emits {σ' : Shape} {t : Instr} (htoken : PackToken t) (hbegins : σ.Begins t)
      (hmeets : ∀ k, σ'.Begins k → Meets t k) : StepFits σ (σ', [t])

theorem Shape.begins_runToken {n : Nat} (h : n ≤ 254) (x : Byte) {m : Nat} (hm : m ≠ 0 → n ≠ 0) :
    (Shape.run x m).Begins (runToken n x) :=
  .inl ⟨_, rfl, fun h0 => mt (runLength_eq_zero (by omega)).mp (hm h0)⟩

/-- After a run that is not empty, the first token is a run of the same symbol, not empty. -/
theorem Shape.Begins.of_run {x : Byte} {n : Nat} {k : Instr} (h : (Shape.run x n).Begins k) (hn : n ≠ 0) :
    ∃ m, k = .run m x ∧ m ≠ 0 := by
  rcases h with ⟨m, hk, hm⟩ | ⟨h0, -⟩
  · exact ⟨m, hk, hm hn⟩
  · exact absurd h0 hn

theorem countOf_ne_zero {m : Byte} (hm : m ≠ 0) : countOf m ≠ 0 := fun h0 => hm (BitVec.eq_of_toNat_eq h0)

theorem head?_sem_run {m : Byte} (hm : m ≠ 0) (x : Byte) : (sem (.run m x)).head? = some x := by
  rw [sem, List.head?_replicate, if_neg (countOf_ne_zero hm)]

theorem getLast?_sem_run {m : Byte} (hm : m ≠ 0) (x : Byte) : (sem (.run m x)).getLast? = some x := by
  rw [sem, List.getLast?_replicate, if_neg (countOf_ne_zero hm)]

theorem Shape.stepFits_run {x : Byte} {n : Nat} (h : n ≤ 253) (b : Byte) :
    (Shape.run x n).StepFits ((Shape.run x n).afterSym b) := by
  simp only [Shape.afterSym]
  split
  · split
    · refine .emits (packToken_runToken le_rfl x) (begins_runToken le_rfl x fun _ => by decide) fun k hk => ?_
      rcases hk with ⟨m, rfl, -⟩ | ⟨-, y, hfirst, hne⟩
      · exact .sameRun
      · exact .otherAfterRun (by decide) hfirst hne
    · refine .silent fun k hk => ?_
      obtain ⟨m, hk, hm⟩ := hk.of_run (Nat.succ_ne_zero n)
      exact .inl ⟨m, hk, fun _ => hm⟩
  · rename_i hne
    split
    · rename_i hzero
      exact .silent fun k hk => .inr ⟨hzero, b, hk, hne⟩
    · rename_i hpos
      exact .emits (packToken_runToken (by omega) x) (begins_runToken (by omega) x fun _ => hpos)
        fun k hk => .otherAfterRun (mt (runLength_eq_zero (by omega)).mp hpos) hk hne

theorem Shape.stepFits_literal {q : List Byte} {x : Byte} (h : (Shape.literal q x).Inv) (b : Byte) :
    (Shape.literal q x).StepFits ((Shape.literal q x).afterSym b) := by
  obtain ⟨hlen, hchain⟩ := h
  have hlen' : (q ++ [x]).length = q.length + 1 := by simp
  have htoken : PackToken (blockToken (q ++ [x])) := packToken_blockToken (by omega) (by simp) hchain
  simp only [Shape.afterSym]
  split
  · split
    · rename_i hq
      refine .silent fun k hk => ?_
      obtain ⟨m, rfl, hm⟩ := hk.of_run (by decide)
      rw [hq]
      exact head?_sem_run hm x
    · rename_i hq
      refine .emits htoken rfl fun k hk => ?_
      obtain ⟨m, rfl, hm⟩ := hk.of_run (by decide)
      refine .litRun (fun hc => hq ?_) List.getLast?_concat hm
      have hmod : (q ++ [x]).length % 256 = 1 := congrArg BitVec.toNat hc
      exact List.length_eq_zero_iff.mp (by omega)
  · rename_i hne
    split
    · rename_i hfull
      refine .emits htoken rfl fun k hk => ?_
      rw [blockToken, hlen', hfull]
      exact .otherAfterFull List.getLast?_concat hk hne
    · refine .silent fun k hk => hk.trans ?_
      cases q <;> rfl

theorem Shape.Inv.stepFits {σ : Shape} (h : σ.Inv) (b : Byte) : σ.StepFits (σ.afterSym b) :=
  match σ with
  | .idle => .silent fun k hk h0 => by simp [Shape.Begins, h0] at hk
  | .run _ _ => stepFits_run h b
  | .literal _ _ => stepFits_literal h b

/-- Tokens that a call can give from the shape `σ`. -/
structure Shape.Gives (σ : Shape) (ks : List Instr) : Prop where
  /-- Each is one of `pack`. -/
  token : ∀ k ∈ ks, PackToken k
  /-- Neighbours meet as those of `pack` do. -/
  chain : ks.IsChain Meets
  /-- The first fits the shape. -/
  begins : ∀ k ∈ ks.head?, σ.Begins k

theorem Shape.Gives.nil (σ : Shape) : σ.Gives [] := ⟨by simp, .nil, by simp⟩

theorem Shape.Gives.singleton {σ : Shape} {k : Instr} (hk : PackToken k) (hbegins : σ.Begins k) : σ.Gives [k] :=
  ⟨by simpa using hk, .singleton k, by simpa using hbegins⟩

theorem Shape.Inv.gives_lastToken {σ : Shape} (h : σ.Inv) (zeroRun : Bool) : σ.Gives (σ.lastToken zeroRun) := by
  match σ with
  | .idle => exact .nil _
  | .run x n =>
    have hle : n ≤ 254 := Nat.le_succ_of_le h
    simp only [Shape.lastToken]
    split
    · exact .singleton (packToken_runToken hle x) (begins_runToken hle x id)
    · exact .nil _
  | .literal q x =>
    obtain ⟨hlen, hchain⟩ := h
    exact .singleton (packToken_blockToken (by simpa using Nat.lt_succ_of_le hlen) (by simp) hchain) rfl

/-- A step that fits, before tokens that the shape after it can give. -/
theorem Shape.StepFits.gives {σ σ' : Shape} {ts ks : List Instr} (h : σ.StepFits (σ', ts)) (hks : σ'.Gives ks) :
    σ.Gives (ts ++ ks) := by
  cases h with
  | silent hbegins => exact ⟨hks.token, hks.chain, fun k hk => hbegins k (hks.begins k hk)⟩
  | emits htoken hbegins hmeets =>
    exact ⟨List.forall_mem_cons.mpr ⟨htoken, hks.token⟩,
      List.isChain_cons.mpr ⟨fun k hk => hmeets k (hks.begins k hk), hks.chain⟩, by simpa using hbegins⟩

/-- By induction over the symbols, the tokens of a call are such as `pack` gives. -/
theorem Shape.Inv.gives_tokens {σ : Shape} (h : σ.Inv) (zeroRun : Bool) (bs : List Byte) :
    σ.Gives (σ.tokens zeroRun bs) := by
  induction bs generalizing σ with
  | nil => exact h.gives_lastToken zeroRun
  | cons b bs ih => exact (h.stepFits b).gives (ih (h.afterSym b))

theorem PackToken.wf {k : Instr} (h : PackToken k) : k.wf = true ∧ k.isToken = true := by
  cases h with
  | run hn => exact ⟨run_wf_iff.mpr hn, rfl⟩
  | lit hlen => exact ⟨lit_wf_iff.mpr hlen, rfl⟩

/-- `pack` splits into the tokens that the idle shape gives. -/
theorem tokens_pack (zeroRun : Bool) (bs : List Byte) :
    tokens (pack zeroRun bs) = .ok (Shape.idle.tokens zeroRun bs) := by
  rw [pack_eq]
  exact streamSplitsInOneWay _ fun k hk => ((Shape.inv_idle.gives_tokens zeroRun bs).token k hk).wf

/-- What the tokens of `pack` are and how they meet. -/
theorem gives_of_tokens_pack {zeroRun : Bool} {bs : List Byte} {ks : List Instr}
    (h : tokens (pack zeroRun bs) = .ok ks) : Shape.idle.Gives ks := by
  obtain rfl : Shape.idle.tokens zeroRun bs = ks := Except.ok.inj ((tokens_pack zeroRun bs).symm.trans h)
  exact Shape.inv_idle.gives_tokens zeroRun bs

/-- Settles O39: only a run of 254 meets a zero-length run, and neither that run nor a block of 1 meets a next token. -/
theorem packTokenRanges : Obligations.PackTokenRanges := by
  intro zeroRun bs
  have hks := Shape.inv_idle.gives_tokens zeroRun bs
  refine ⟨_, tokens_pack zeroRun bs, fun k hk => (hks.token k hk).wf, ?zeroRun, ?literal⟩
  case zeroRun =>
    rintro pre post n sym hsplit rfl
    rw [hsplit] at hks
    constructor
    · cases post with
      | nil => rfl
      | cons k post =>
        cases (List.isChain_append_cons_cons.mp hks.chain).2.1 with
        | otherAfterRun hn => exact absurd rfl hn
    · cases pre using List.reverseRecOn with
      | nil => exact absurd rfl (hks.begins _ rfl)
      | append_singleton pre k =>
        have hmeets : Meets k (.run 0 sym) := by
          have hchain := hks.chain
          rw [List.append_assoc] at hchain
          exact (List.isChain_append_cons_cons.mp hchain).2.1
        cases hmeets with
        | sameRun => exact List.getLast?_concat
        | litRun _ _ hn => exact absurd rfl hn
        | otherAfterRun _ hfirst | otherAfterFull _ hfirst => cases hfirst
  case literal =>
    intro pre post c ss hsplit
    rw [hsplit] at hks
    cases hks.token (.lit c ss) (by simp) with
    | lit hlen hne hchain =>
      refine ⟨fun hc => hne ?_, fun hc => ?_, hchain⟩
      · exact List.length_eq_zero_iff.mp (by rw [hlen, hc]; rfl)
      · cases post with
        | nil => rfl
        | cons k post =>
          cases (List.isChain_append_cons_cons.mp hks.chain).2.1 with
          | litRun hone => exact absurd hc hone
          | otherAfterFull => cases hc

/-- Settles O40: the four ways two tokens meet, of which the last two are in different symbols. -/
theorem packNeighbouringTokens : Obligations.PackNeighbouringTokens := by
  rintro zeroRun bs ks pre post k k' htokens rfl
  have hmeets := (List.isChain_append_cons_cons.mp (gives_of_tokens_pack htokens).chain).2.1
  cases hmeets with
  | @sameRun n x => exact ⟨fun _ => ⟨⟨n, x, rfl⟩, .inl ⟨x, rfl⟩⟩, by simp⟩
  | @litRun c ss n x _ hlast =>
    refine ⟨fun _ => ⟨⟨n, x, rfl⟩, .inr ⟨c, ss, rfl⟩⟩, ?_⟩
    rintro _ _ ⟨⟩ -
    exact ⟨n, x, rfl, hlast⟩
  | @otherAfterRun n x y _ hn hfirst hne =>
    refine ⟨fun hsame => ?_, by simp⟩
    rw [getLast?_sem_run hn, hfirst] at hsame
    exact absurd (Option.some.inj hsame).symm hne
  | @otherAfterFull ss x y _ hlast hfirst hne =>
    refine ⟨fun hsame => ?_, ?_⟩
    · exact absurd (Option.some.inj (hfirst.symm.trans (hsame.symm.trans hlast))) hne
    · rintro _ _ ⟨⟩ hfull
      exact absurd rfl hfull

/-! ### Round trip and concatenation -/

/-- What `pack` gives decodes to the input: what has been emitted before the end, and the last token for what is
pending. -/
theorem decodeStream_pack (zeroRun : Bool) (bs : List Byte) : decodeStream (pack zeroRun bs) = some bs := by
  obtain ⟨t, out, done, h⟩ := encCovers_of_idle bs (s := .reset) ⟨rfl, rfl, rfl⟩
  have hout : t.encOut = items out := congrArg State.encOut h.frame
  rw [pack_of_run h.run hout, decodeStream_append h.decodes (h.inv.decodeStream_lastToken zeroRun), h.covers]

/-- A stream that decodes is well-formed. -/
theorem wellFormedStream_of_decodeStream {vs bs : List Byte} (h : decodeStream vs = some bs) :
    wellFormedStream vs = true := by
  unfold decodeStream at h
  unfold wellFormedStream
  cases htokens : tokens vs with
  | ok ks => rfl
  | error e => rw [htokens] at h; cases h

/-- Settles O32: the call on `pack` is a call on a well-formed stream that decodes to the input. -/
theorem unpackInvertsPack : Obligations.UnpackInvertsPack := by
  intro zeroRun bs s hhead
  have hdecode := decodeStream_pack zeroRun bs
  obtain ⟨f, hcall⟩ := unpackCallDecodesEveryWellFormedStream _ bs s hhead hdecode
  exact ⟨wellFormedStream_of_decodeStream hdecode, hdecode, _, hcall, rfl, rfl, rfl⟩

/-- Settles O42: by induction along the tokens of the first stream, in `decodeStream_append`. -/
theorem decodeOfConcatenation : Obligations.DecodeOfConcatenation := fun _ _ _ _ => decodeStream_append

/-! ### Sizes -/

/-- A token covers at most 254 symbols for every two elements. -/
theorem sem_length_le {vs rest : List Byte} {i : Instr} (h : decode vs = .ok (i, rest)) :
    (sem i).length ≤ 254 * ((elementsOf i).length / 2) := by
  rcases decode_ok_cases h with ⟨n, s, hn, rfl, -⟩ | ⟨c, ss, hlen, rfl, -⟩
  · have hmax : countOf n ≤ 254 := by
      simp only [Config.marker, countOf] at hn ⊢
      bv_omega
    simpa [sem, elementsOf, encode] using hmax
  · simp only [sem, elementsOf, encode, Option.getD_some, List.length_cons]
    omega

/-- So does a well-formed stream. -/
theorem decodeStream_length_le {vs bs : List Byte} (h : decodeStream vs = some bs) :
    bs.length ≤ 254 * (vs.length / 2) := by
  induction vs using stream_induction generalizing bs with
  | nil => cases h; simp
  | stuck vs e hne hd => rw [decodeStream_of_decode_error hne hd] at h; cases h
  | token vs i rest hd ih =>
    rw [decodeStream_of_decode hd, Option.map_eq_some_iff] at h
    obtain ⟨bs', hrest, rfl⟩ := h
    have htoken := sem_length_le hd
    have htail := ih hrest
    rw [decode_ok_elementsOf hd, List.length_append, List.length_append]
    omega

/-- How many elements ENC can still emit for what is pending in a shape, without another symbol (rule R150). A run right
after a 254 flush may end in a zero-length run. -/
def Shape.budget : Shape → Nat
  | .idle => 1
  | .run _ n => max 2 (2 * n + 1)
  | .literal q _ => 2 * q.length + 3

/-- The number of elements of some tokens. -/
def elementCount (ks : List Instr) : Nat := (ks.flatMap elementsOf).length

@[simp] theorem elementCount_nil : elementCount [] = 0 := rfl

@[simp] theorem elementCount_runToken (n : Nat) (x : Byte) : elementCount [runToken n x] = 2 := rfl

@[simp] theorem elementCount_blockToken (q : List Byte) (x : Byte) :
    elementCount [blockToken (q ++ [x])] = q.length + 3 := by
  simp [elementCount, blockToken, elementsOf, encode]

theorem elementCount_append (ks ls : List Instr) : elementCount (ks ++ ls) = elementCount ks + elementCount ls := by
  rw [elementCount, List.flatMap_append, List.length_append]
  rfl

theorem Shape.elementCount_lastToken_le (σ : Shape) (zeroRun : Bool) :
    elementCount (σ.lastToken zeroRun) ≤ σ.budget := by
  match σ with
  | .idle => exact Nat.zero_le _
  | .run x n =>
    simp only [Shape.lastToken, Shape.budget]
    split
    · exact le_max_left _ _
    · exact Nat.zero_le _
  | .literal q x =>
    rw [Shape.lastToken, elementCount_blockToken, Shape.budget]
    omega

/-- Each symbol is worth two elements: what a step emits, and the budget it leaves, are paid by the budget before. -/
theorem Shape.elementCount_afterSym_le (σ : Shape) (b : Byte) :
    elementCount (σ.afterSym b).2 + (σ.afterSym b).1.budget ≤ σ.budget + 2 := by
  match σ with
  | .idle => exact le_rfl
  | .run x n =>
    simp only [Shape.afterSym]
    split
    · split <;> simp only [Shape.budget, elementCount_nil, elementCount_runToken] <;> omega
    · split <;> simp only [Shape.budget, elementCount_nil, elementCount_runToken, List.length_nil] <;> omega
  | .literal q x =>
    simp only [Shape.afterSym]
    split
    · split
      · simp only [Shape.budget, elementCount_nil]; omega
      · rename_i hq
        have hpos : 0 < q.length := List.length_pos_iff.mpr hq
        simp only [Shape.budget, elementCount_blockToken]; omega
    · split
      · simp only [Shape.budget, elementCount_blockToken, List.length_nil]; omega
      · simp only [Shape.budget, elementCount_nil, List.length_append, List.length_singleton]; omega

theorem Shape.elementCount_tokens_le (σ : Shape) (zeroRun : Bool) (bs : List Byte) :
    elementCount (σ.tokens zeroRun bs) ≤ σ.budget + 2 * bs.length := by
  induction bs generalizing σ with
  | nil => exact σ.elementCount_lastToken_le zeroRun
  | cons b bs ih =>
    have hstep := σ.elementCount_afterSym_le b
    have hrest := ih (σ.afterSym b).1
    rw [Shape.tokens_cons, elementCount_append, List.length_cons]
    omega

/-- Settles O41: from below, `pack` decodes to the input, and two elements cover at most 254 symbols; from above, a
symbol costs two elements and the call one more. -/
theorem codecSizeBounds : Obligations.CodecSizeBounds := by
  refine ⟨fun zeroRun bs _ => ⟨?lower, ?upper⟩, fun vs bs hdecode => ?decoded⟩
  case lower =>
    have hle := decodeStream_length_le (decodeStream_pack zeroRun bs)
    omega
  case upper =>
    rw [pack_eq, Nat.add_comm]
    exact Shape.idle.elementCount_tokens_le zeroRun bs
  case decoded =>
    have hle := decodeStream_length_le hdecode
    omega

/-! ### Inputs of one form -/

/-- A run and more of its symbol: a token at each 254 symbols, and the rest as the last token. -/
theorem Shape.tokens_run_replicate (zeroRun : Bool) (x : Byte) (m : Nat) {n : Nat} (h : n ≤ 253) :
    (Shape.run x n).tokens zeroRun (List.replicate m x) =
      List.replicate ((n + m) / 254) (runToken 254 x) ++ (Shape.run x ((n + m) % 254)).lastToken zeroRun := by
  induction m generalizing n with
  | zero =>
    rw [List.replicate_zero, Shape.tokens_nil, Nat.add_zero, Nat.div_eq_of_lt (by omega), Nat.mod_eq_of_lt (by omega)]
    rfl
  | succ m ih =>
    rw [List.replicate_succ, Shape.tokens_cons]
    by_cases hn : n = 253
    · have hdiv : (n + (m + 1)) / 254 = (0 + m) / 254 + 1 := by omega
      have hmod : (n + (m + 1)) % 254 = (0 + m) % 254 := by omega
      simp only [Shape.afterSym, hn, if_true]
      rw [ih (Nat.zero_le _), ← hn, hdiv, hmod, List.replicate_succ]
      rfl
    · simp only [Shape.afterSym, hn, if_true, if_false]
      rw [ih (by omega), Nat.add_right_comm, Nat.add_assoc]
      rfl

theorem tokens_idle_replicate (zeroRun : Bool) (x : Byte) {k r : Nat} (hr : r < 254) (hlen : 2 ≤ 254 * k + r) :
    Shape.idle.tokens zeroRun (List.replicate (254 * k + r) x) =
      List.replicate k (runToken 254 x) ++ (Shape.run x r).lastToken zeroRun := by
  obtain ⟨m, hm⟩ := Nat.exists_eq_add_of_le hlen
  have hdiv : (2 + m) / 254 = k := by omega
  have hmod : (2 + m) % 254 = r := by omega
  calc Shape.idle.tokens zeroRun (List.replicate (254 * k + r) x)
    _ = Shape.idle.tokens zeroRun (x :: x :: List.replicate m x) := by rw [hm, Nat.add_comm]; rfl
    _ = (Shape.run x 2).tokens zeroRun (List.replicate m x) := by simp [Shape.tokens_cons, Shape.afterSym]
    _ = _ := by rw [Shape.tokens_run_replicate zeroRun x m (by decide), hdiv, hmod]

/-- Settles O33: the first two symbols make a run, which is split at each 254. -/
theorem packSplitsEqualSymbolsAt254 : Obligations.PackSplitsEqualSymbolsAt254 := by
  intro x k r hr hlen
  have hpack (zeroRun : Bool) : pack zeroRun (List.replicate (254 * k + r) x) =
      (List.replicate k [0xFE, x]).flatten ++ ((Shape.run x r).lastToken zeroRun).flatMap elementsOf := by
    rw [pack_eq, tokens_idle_replicate zeroRun x hr hlen, List.flatMap_append, List.flatMap_replicate]
    rfl
  rw [hpack, hpack]
  constructor
  · simp [Shape.lastToken, runToken, elementsOf, encode]
  · by_cases hzero : r = 0 <;> simp [Shape.lastToken, runToken, elementsOf, encode, hzero]

/-- Symbols of which no two neighbours are equal, behind a queue: full blocks, and a block of what is left. -/
theorem Shape.exists_tokens_literal (zeroRun : Bool) (bs : List Byte) {q : List Byte} {x : Byte} (hq : q.length ≤ 254)
    (hchain : (x :: bs).IsChain (· ≠ ·)) :
    ∃ (full : List (List Byte)) (last : List Byte), q ++ x :: bs = full.flatten ++ last ∧
      (∀ p ∈ full, p.length = 255) ∧ 1 ≤ last.length ∧ last.length ≤ 255 ∧
      (Shape.literal q x).tokens zeroRun bs = full.map blockToken ++ [blockToken last] := by
  induction bs generalizing q x with
  | nil => exact ⟨[], q ++ [x], rfl, by simp, by simp, by simpa using Nat.lt_succ_of_le hq, rfl⟩
  | cons b bs ih =>
    obtain ⟨hne, htail⟩ := List.isChain_cons_cons.mp hchain
    simp only [Shape.tokens_cons, Shape.afterSym, if_neg hne.symm]
    split
    · rename_i hfull
      obtain ⟨full, last, hsplit, hlens, hpos, hmax, htokens⟩ := ih (q := []) (Nat.zero_le _) htail
      refine ⟨(q ++ [x]) :: full, last, ?_, ?_, hpos, hmax, by rw [htokens]; rfl⟩
      · rw [List.flatten_cons, List.append_assoc, ← hsplit, List.append_assoc]
        rfl
      · exact List.forall_mem_cons.mpr ⟨by simp [hfull], hlens⟩
    · rename_i hroom
      have hq' : (q ++ [x]).length ≤ 254 := by
        rw [List.length_append, List.length_singleton]
        omega
      simpa using ih hq' htail

/-- Settles O34: the first symbol is queued, and every other one behind it. -/
theorem packEmitsNonRepeatingInputAsLiterals : Obligations.PackEmitsNonRepeatingInputAsLiterals := by
  intro zeroRun bs hne hchain
  match bs with
  | [] => exact absurd rfl hne
  | x :: bs =>
    obtain ⟨full, last, hsplit, hlens, hpos, hmax, htokens⟩ :=
      Shape.exists_tokens_literal zeroRun bs (q := []) (Nat.zero_le _) hchain
    refine ⟨full, last, hsplit, hlens, hpos, hmax, ?_⟩
    have hfull : (full.map blockToken).flatMap elementsOf = full.flatMap fun q => 0xFF :: 0xFF :: q := by
      rw [List.flatMap_map]
      refine List.flatMap_congr fun q hq => ?_
      rw [blockToken, hlens q hq]
      rfl
    calc pack zeroRun (x :: bs)
      _ = ((Shape.literal [] x).tokens zeroRun bs).flatMap elementsOf := pack_eq zeroRun (x :: bs)
      _ = _ := by rw [htokens, List.flatMap_append, hfull, List.flatMap_singleton]; rfl

/-- Settles O35: the second symbol is queued behind the first. -/
theorem packOfTwoDifferentSymbols : Obligations.PackOfTwoDifferentSymbols := by
  intro zeroRun a b hne
  have htokens : Shape.idle.tokens zeroRun [a, b] = [blockToken [a, b]] := by
    simp [Shape.tokens, Shape.afterSym, Shape.lastToken, hne.symm]
  rw [pack_eq, htokens]
  rfl

/-- Settles O36: the two runs end at the next symbol, and the last two symbols are queued. -/
theorem packOfWorkedExample : Obligations.PackOfWorkedExample := by
  intro zeroRun a f hne
  have htokens : Shape.idle.tokens zeroRun [a, a, a, a, a, f, f, f, f, a, f] =
      [runToken 5 a, runToken 4 f, blockToken [a, f]] := by
    simp [Shape.tokens, Shape.afterSym, Shape.lastToken, hne, hne.symm]
  rw [pack_eq, htokens]
  rfl

/-- Settles O43: runs of the model on four concrete streams. -/
theorem unpackIsNotInjective : Obligations.UnpackIsNotInjective := by
  refine ⟨?_, ?_, ?_, ?_⟩ <;> decide +kernel

end Sys2Proof.Machine

/-! # Proofs: exceptions (60_exceptions.md)

Which instruction takes `MalformedStream` (O10), and that a faulted DEC stands still until its reset (O11). -/

namespace Sys2Proof.Machine

/-! ### What can raise the exception -/

theorem DecState.err_iff {d : DecState} : d.err = true ↔ d.phase = .fault := beq_iff_eq

theorem DecState.err_eq_false_iff {d : DecState} : d.err = false ↔ d.phase ≠ .fault := beq_eq_false_iff_ne

/-- Elements neither raise the exception nor end it. -/
theorem takeElements_phase_eq_fault_iff (vs : List Byte) {s : State} :
    (takeElements vs s).dec.phase = .fault ↔ s.dec.phase = .fault := by
  refine ⟨fun h => ?_, fun h => by rw [takeElements_fault vs h, h]⟩
  induction vs generalizing s with
  | nil => exact h
  | cons v vs ih => exact takeElement_phase_fault (ih h)

/-- An ENC instruction touches neither DEC's registers nor its output (rules R16, R160). -/
theorem exec_enc_keeps_dec {i : Instr} (hi : i.isEnc = true) {s t : State} (h : exec i s = .next t) :
    t.dec = s.dec ∧ t.decOut = s.decOut := by
  rw [(exec_localTo_enc hi).frame State.withEnc_self h]
  exact ⟨rfl, rfl⟩

/-- An instruction other than `DEC.END` raises nothing (rule R163). -/
theorem exec_ne_decEnd_phase_ne_fault {i : Instr} (hi : i ≠ .decEnd) {s t : State} (h : exec i s = .next t)
    (hs : s.dec.phase ≠ .fault) : t.dec.phase ≠ .fault := by
  cases i with
  | lit | run =>
    obtain rfl := Host.Outcome.next.inj h
    exact mt (takeElements_phase_eq_fault_iff _).mp hs
  | encReset | encSym | encEnd => rwa [(exec_enc_keeps_dec rfl h).1]
  | decReset =>
    obtain rfl := Host.Outcome.next.inj h
    simp
  | decElem v =>
    obtain rfl := Host.Outcome.next.inj h
    exact mt takeElement_phase_fault hs
  | decEnd => exact absurd rfl hi

/-- Outside `FAULT`, `DEC.END` raises exactly inside a token (rules R131, R132). -/
theorem exec_decEnd_phase_eq_fault_iff {s t : State} (h : exec .decEnd s = .next t) (hs : s.dec.phase ≠ .fault) :
    t.dec.phase = .fault ↔ s.dec.phase ≠ .head := by
  rcases execDecEnd_cases s with ⟨hhead, hexec⟩ | ⟨hinside, -, hexec⟩ | ⟨hfault, -⟩
  · obtain rfl := Host.Outcome.next.inj (hexec.symm.trans h)
    simp [hhead]
  · obtain rfl := Host.Outcome.next.inj (hexec.symm.trans h)
    simp [hinside]
  · exact absurd hfault hs

/-- Settles O10: `DEC.END` by its cases, and every other instruction because it raises nothing. -/
theorem onlyDecEndInsideTokenRaises : Obligations.OnlyDecEndInsideTokenRaises := by
  intro i s t h herr
  have hs := DecState.err_eq_false_iff.mp herr
  rw [DecState.err_iff]
  by_cases hi : i = .decEnd
  · subst hi
    simpa using exec_decEnd_phase_eq_fault_iff h hs
  · simpa [hi] using exec_ne_decEnd_phase_ne_fault hi h hs

/-! ### What a faulted DEC still takes -/

/-- In `FAULT` every DEC instruction but the reset is ignored (rule R164). -/
theorem exec_dec_of_fault {i : Instr} (hi : i.isEnc = false) (hne : i ≠ .decReset) {s : State}
    (h : s.dec.phase = .fault) : exec i s = .next s := by
  cases i with
  | lit | run => exact congrArg Host.Outcome.next (takeElements_fault _ h)
  | decReset => exact absurd rfl hne
  | decElem v => exact congrArg Host.Outcome.next (takeElement_fault h)
  | decEnd => exact exec_decEnd_of_fault h
  | encReset | encSym | encEnd => cases hi

/-- From `FAULT`, an instruction other than DEC's reset leaves DEC as it is. -/
theorem exec_of_fault_keeps_dec {i : Instr} (hne : i ≠ .decReset) {s t : State} (h : exec i s = .next t)
    (hs : s.dec.phase = .fault) : t.dec = s.dec ∧ t.decOut = s.decOut := by
  match hi : i.isEnc with
  | true => exact exec_enc_keeps_dec hi h
  | false =>
    obtain rfl := Host.Outcome.next.inj ((exec_dec_of_fault hi hne hs).symm.trans h)
    exact ⟨rfl, rfl⟩

theorem fetchEncItem_ne_decReset (s : State) : (fetchEncItem s).1 ≠ some .decReset := by
  unfold fetchEncItem
  split <;> simp

theorem fetchDecItem_ne_decReset (s : State) : (fetchDecItem s).1 ≠ some .decReset := by
  unfold fetchDecItem
  split <;> simp

theorem fetchDecToken_ne_decReset (s : State) : (fetchDecToken s).1 ≠ some .decReset := by
  match hd : decode (leadingElements s.decIn) with
  | .ok (i, after) =>
    rw [fetchDecToken_of_ok hd]
    rcases decode_ok_cases hd with ⟨n, sym, -, rfl, -⟩ | ⟨c, ss, -, rfl, -⟩ <;> simp
  | .error e =>
    rw [fetchDecToken_of_error hd]
    exact fetchDecItem_ne_decReset s

/-- DEC's reset is delivered by its own turn alone: it has no encoding (rule R83). -/
theorem turn_of_fetch_decReset {turn : Turn} {s : State} (h : (fetch turn s).1 = some .decReset) :
    ∃ drops, turn = .decReset drops := by
  cases turn with
  | decReset drops => exact ⟨drops, rfl⟩
  | encReset drops => simp [fetch] at h
  | encItem => exact absurd h (fetchEncItem_ne_decReset s)
  | decItem => exact absurd h (fetchDecItem_ne_decReset s)
  | decToken => exact absurd h (fetchDecToken_ne_decReset s)
  | passItem => simp [fetch] at h

/-- No fetch touches DEC's registers or its output. -/
theorem fetch_keeps_dec (turn : Turn) (s : State) :
    (fetch turn s).2.dec = s.dec ∧ (fetch turn s).2.decOut = s.decOut := by
  rcases fetch_takes turn s with ⟨xs, ys, hf⟩ | hf <;> rw [hf]
  · exact ⟨rfl, rfl⟩
  · exact ⟨passItem_dec s, passItem_decOut s⟩

/-- Settles O11: the fetch leaves DEC as it is, and so does every instruction it can deliver but DEC's reset. -/
theorem faultFreezesDecUntilReset : Obligations.FaultFreezesDecUntilReset := by
  intro s t hs hstep
  match hturns : s.turns with
  | [] =>
    rw [step_of_no_turn hturns] at hstep
    obtain rfl := Host.Outcome.next.inj hstep
    exact .inl ⟨rfl, rfl⟩
  | turn :: rest =>
    have hfetched := fetch_keeps_dec turn { s with turns := rest }
    match hf : fetch turn { s with turns := rest } with
    | (none, u) =>
      rw [step_of_fetch_none hturns hf] at hstep
      obtain rfl := Host.Outcome.next.inj hstep
      rw [hf] at hfetched
      exact .inl hfetched
    | (some i, u) =>
      rw [step_of_fetch_some hturns hf] at hstep
      rw [hf] at hfetched
      obtain ⟨hdec, hout⟩ : u.dec = s.dec ∧ u.decOut = s.decOut := hfetched
      by_cases hi : i = .decReset
      · subst hi
        obtain ⟨drops, rfl⟩ := turn_of_fetch_decReset (congrArg Prod.fst hf)
        obtain rfl := Host.Outcome.next.inj hstep
        exact .inr ⟨⟨drops, rest, rfl⟩, rfl, rfl, hout⟩
      · obtain ⟨hdec', hout'⟩ := exec_of_fault_keeps_dec hi hstep (hdec ▸ hs)
        exact .inl ⟨hdec'.trans hdec, hout'.trans hout⟩

end Sys2Proof.Machine
